-- ==== Sys2Proof/Word.lean ====
section
/-! DEFINITION. The widths of the words this hardware handles (spec/00_scope.md R7, R80). -/

namespace Sys2Proof

/-- A command word or a status word: 32 bits (R80, R32, R46). -/
abbrev Word := BitVec 32

/-- A payload byte (R93). -/
abbrev Byte := BitVec 8

/-- A symbol is one 8-bit byte (R6). -/
abbrev Symbol := BitVec 8

/-- An index of the node memory, 9 bits (R24, R40). -/
abbrev NodeIdx := BitVec 9

/-- A pad count, 0 to 7 (R31, R43). -/
abbrev Pad := BitVec 3

/-- A bit sequence, element 0 first in time: a code, or a stretch of the payload (R28, R65). -/
abbrev Bits := List Bool

end Sys2Proof
end

