-- ==== Sys2Proof/Config.lean ====
section
/-! DEFINITION. What the implementation fixes: the parameters of spec/00_scope.md R7 and the two
command ports of spec/30_encoding.md R81. -/

namespace Sys2Proof

/-- The two command ports (R81). Each unit has its own, and no word is seen by both. -/
inductive Port where
  /-- The port of the encoder unit ENC. -/
  | enc
  /-- The port of the decoder unit DEC. -/
  | dec
deriving DecidableEq, Repr

namespace Config

/-- Number of code-table entries, one per symbol value (R7 `NSYM`). -/
def nSym : Nat := 256

/-- Greatest length of one code in bits (R7 `LMAX`). -/
def lMax : Nat := 255

/-- Number of node-memory entries (R7 `NNODE`). -/
def nNode : Nat := 512

/-- Greatest number of bits one `CT_APP` appends (R7 `APPMAX`). -/
def appMax : Nat := 16

end Config

end Sys2Proof
end

