-- ==== Sys2Proof/Syntax.lean ====
section
/-! DEFINITION. The commands, one constructor per row of spec/opcode_table.json (spec/30_encoding.md
R82, R84). Every field has exactly the width the format gives it, and every value of every field
is legal (R88). -/

namespace Sys2Proof

inductive Instr where
  /-- `ENC_INIT` (R112), format Z. -/
  | encInit
  /-- `CT_CLR sym` (R113), format S. -/
  | ctClr (sym : Symbol)
  /-- `CT_APP sym, n, code` (R114), format A. The field `nm1` is the count less one (R83); `code`
  is kept whole, the ignored bits above the count included. -/
  | ctApp (sym : Symbol) (nm1 : BitVec 4) (code : BitVec 16)
  /-- `ENC_SYM sym` (R115), format S. -/
  | encSym (sym : Symbol)
  /-- `ENC_FLUSH` (R116), format Z. -/
  | encFlush
  /-- `DEC_INIT` (R142), format Z. -/
  | decInit
  /-- `NM_LEAF idx, sym` (R143), format L. -/
  | nmLeaf (idx : NodeIdx) (sym : Symbol)
  /-- `NM_INT idx, left, right` (R144), format N. -/
  | nmInt (idx left right : NodeIdx)
  /-- `DEC_START root, pad` (R145), format T. -/
  | decStart (root : NodeIdx) (pad : Pad)
  /-- `DEC_BYTE byte` (R146), format B. -/
  | decByte (byte : Byte)
  /-- `DEC_END` (R147), format Z. -/
  | decEnd
deriving DecidableEq, Repr

/-- The port that takes the command (R81). -/
def Instr.port : Instr → Port
  | .encInit => .enc
  | .ctClr _ => .enc
  | .ctApp _ _ _ => .enc
  | .encSym _ => .enc
  | .encFlush => .enc
  | .decInit => .dec
  | .nmLeaf _ _ => .dec
  | .nmInt _ _ _ => .dec
  | .decStart _ _ => .dec
  | .decByte _ => .dec
  | .decEnd => .dec

end Sys2Proof
end

