-- ==== Sys2Proof/WellFormed.lean ====
section
/-! DEFINITION. Well-formedness. The fields of `Instr` have the widths of their formats and every
value of every field is accepted (spec/30_encoding.md R88), so the one thing left to check is the
port: a command is well-formed on the port that takes it and on no other (R81, R86). -/

namespace Sys2Proof

/-- The command `i` may be written to the port `p` (R81). -/
def wellFormed (p : Port) (i : Instr) : Bool := i.port == p

end Sys2Proof
end

