-- ==== Sys2Proof/Decode.lean ====
section
/-! DEFINITION. Decoding and encoding of command words (spec/30_encoding.md R82 to R86, R95).
Decoding is the opcode map of R84, read row by row: a word is a command exactly when it agrees with
the row's pattern on the row's mask. Encoding is written from the format pictures of R82. -/

namespace Sys2Proof

/-- One row of the opcode map R84: the port, the bits that are fixed (`mask`), their values
(`pattern`), and how the fields of the row's format are read (R82). -/
structure OpcodeRow where
  port : Port
  pattern : Word
  mask : Word
  read : Word → Instr

/-- The word agrees with the row (R84): `(W & mask) == match`, on the row's own port. -/
def OpcodeRow.accepts (r : OpcodeRow) (p : Port) (w : Word) : Bool :=
  r.port == p && (w &&& r.mask) == r.pattern

/-- The field `W[lo + len - 1 : lo]` (R82). -/
def field (lo len : Nat) (w : Word) : BitVec len := w.extractLsb' lo len

/-- The opcode map R84, in the order of the table. -/
def opcodeMap : List OpcodeRow :=
  [ ⟨.enc, 0x10000000, 0xFFFFFFFF, fun _ => .encInit⟩,
    ⟨.enc, 0x20000000, 0xFFFFFF00, fun w => .ctClr (field 0 8 w)⟩,
    ⟨.enc, 0x30000000, 0xF0000000, fun w => .ctApp (field 20 8 w) (field 16 4 w) (field 0 16 w)⟩,
    ⟨.enc, 0x40000000, 0xFFFFFF00, fun w => .encSym (field 0 8 w)⟩,
    ⟨.enc, 0x50000000, 0xFFFFFFFF, fun _ => .encFlush⟩,
    ⟨.dec, 0x80000000, 0xFFFFFFFF, fun _ => .decInit⟩,
    ⟨.dec, 0x90000000, 0xFFFE0000, fun w => .nmLeaf (field 8 9 w) (field 0 8 w)⟩,
    ⟨.dec, 0xA0000000, 0xF8000000, fun w => .nmInt (field 18 9 w) (field 9 9 w) (field 0 9 w)⟩,
    ⟨.dec, 0xB0000000, 0xFFFE00F8, fun w => .decStart (field 8 9 w) (field 0 3 w)⟩,
    ⟨.dec, 0xC0000000, 0xFFFFFF00, fun w => .decByte (field 0 8 w)⟩,
    ⟨.dec, 0xD0000000, 0xFFFFFFFF, fun _ => .decEnd⟩ ]

/-- The command that the word `w`, written to the port `p`, stands for; none when it matches no row
of that port, which makes it an illegal command (R85, R86). -/
def decode (p : Port) (w : Word) : Option Instr :=
  (opcodeMap.find? fun r => r.accepts p w).map fun r => r.read w

/-- The word of a command, by the format pictures of R82: opcode first, reserved bits zero. -/
def encode : Instr → Word
  | .encInit => 0x1#4 ++ 0#28
  | .ctClr sym => 0x2#4 ++ 0#20 ++ sym
  | .ctApp sym nm1 code => 0x3#4 ++ sym ++ nm1 ++ code
  | .encSym sym => 0x4#4 ++ 0#20 ++ sym
  | .encFlush => 0x5#4 ++ 0#28
  | .decInit => 0x8#4 ++ 0#28
  | .nmLeaf idx sym => 0x9#4 ++ 0#11 ++ idx ++ sym
  | .nmInt idx left right => 0xA#4 ++ 0#1 ++ idx ++ left ++ right
  | .decStart root pad => 0xB#4 ++ 0#11 ++ root ++ 0#5 ++ pad
  | .decByte byte => 0xC#4 ++ 0#20 ++ byte
  | .decEnd => 0xD#4 ++ 0#28

/-- The port whose rows a word of the opcode table is read against: ENC's opcodes are 1 to 5 and
DEC's are 8 to 13, so bit 31 tells them apart (R81). -/
def portOfWord (w : Word) : Port := if w.getLsbD 31 then .dec else .enc

/-- A number whose low `nbits` bits are a command word, as a command word: bits above `nbits` are
zero, and there is no byte order inside the block (R66). -/
def tableWord (nbits w : Nat) : Word := BitVec.ofNat 32 (w % 2 ^ nbits)

/-- The command that the decoder reads from a word of the opcode table, on the port that the word's
opcode belongs to (log entry 9). -/
def decodeTableWord (nbits w : Nat) : Option Instr :=
  decode (portOfWord (tableWord nbits w)) (tableWord nbits w)

end Sys2Proof
end

