-- ==== Sys2Proof/Machine/State.lean ====
section
/-! DEFINITION. The state of HUFFBS (spec/10_state.md), as plain data, and its value after reset. -/

namespace Sys2Proof.Machine

/-- The protocol state of a unit (R26, R36). -/
inductive Phase where
  /-- Tables may be loaded. -/
  | load
  /-- Data are being taken; the tables are frozen. -/
  | run
  /-- The payload or the output is complete. -/
  | done
  /-- A fault was raised; the unit's cause says which. -/
  | fault
deriving DecidableEq, Repr

/-- The causes of R223. Codes 8 to 15 are never raised and have no constructor (log entry 6). -/
inductive Cause where
  | none
  | illegalCmd
  | protocol
  | noCode
  | codeOverflow
  | treeInvalid
  | truncated
  | padInvalid
deriving DecidableEq, Repr

/-- The state of the decode state machine (R44). -/
inductive DState where
  | atRoot
  | descending
deriving DecidableEq, Repr

/-- One entry of the node memory, the three-way sum of R38. -/
inductive NodeEntry where
  /-- Nothing loaded. -/
  | invalid
  | leaf (sym : Symbol)
  | int (left right : NodeIdx)
deriving DecidableEq, Repr

/-- An indexed memory, as the list of its entries that differ from what an unlisted index reads as,
indices rising (log entry 5). -/
abbrev Memory (α : Type) := List (Nat × α)

/-- The state of the encoder unit (R25). -/
structure Enc where
  /-- `ENC.PHASE` (R26). -/
  phase : Phase
  /-- `ENC.CAUSE` (R27). -/
  cause : Cause
  /-- `ENC.CT`, the code table (R28): an unlisted symbol has the empty code. -/
  ct : Memory Bits
  /-- `ENC.ACC`, the partial byte (R30). -/
  acc : Byte
  /-- `ENC.NB`, how many bits of the partial byte are filled (R30). -/
  nb : BitVec 3
  /-- `ENC.PAD`, the recorded pad count (R31). -/
  pad : Pad
deriving DecidableEq, Repr

/-- The state of the decoder unit (R35). -/
structure Dec where
  /-- `DEC.PHASE` (R36). -/
  phase : Phase
  /-- `DEC.CAUSE` (R37). -/
  cause : Cause
  /-- `DEC.NM`, the node memory (R38): an unlisted index is `INVALID`. -/
  nm : Memory NodeEntry
  /-- `DEC.ROOT` (R42). -/
  root : NodeIdx
  /-- `DEC.PADR`, the pad count the reader was given (R43). -/
  padr : Pad
  /-- `DEC.CUR`, the tree position (R44). -/
  cur : NodeIdx
  /-- `DEC.DSTATE` (R44). -/
  dstate : DState
  /-- `DEC.HOLD`, the payload byte held back (R45). -/
  hold : Byte
  /-- `DEC.HOLDV`: a byte is held (R45). -/
  holdv : Bool
deriving DecidableEq, Repr

/-- What the world outside does to the machine, one at a time, in the order of acceptance
(R9, R71; log entry 1). -/
inductive Input where
  /-- The word is accepted at the port and its step runs to its end, the output sink taking every
  byte the step emits (R10, R257, R258). -/
  | command (port : Port) (word : Word)
  /-- The word is accepted at the port and the output sink answers ready for the first `handed`
  bytes of its step and never again (R257, U5). -/
  | commandStalled (port : Port) (word : Word) (handed : Nat)
  /-- `rst` is asserted and released (R250). A cut `some (w, k)` says that the unit was inside the
  step of the word `w` at that moment and had handed over `k` of its bytes (R253); `none` says
  that the unit was between steps. -/
  | reset (encCut decCut : Option (Word × Nat))
deriving DecidableEq, Repr

/-- The whole machine: the two units (R20), and three fields that are the model's own and not
hardware state: the histories of the two output streams (R11, R23) and the inputs still to come
(R23; log entries 1 and 2). -/
structure State where
  enc : Enc
  dec : Dec
  /-- The history of `EOUT`, oldest byte first. -/
  eout : List Byte
  /-- The history of `DOUT`, oldest symbol first. -/
  dout : List Symbol
  /-- What the host still does, in order. -/
  inputs : List Input
deriving DecidableEq, Repr

/-- Why the machine stops for good. The faults of the spec are no stops: they are next states in
which a unit's phase is FAULT (R222). -/
inductive Fault where
  /-- Raised by `acceptStalled`, for an input `commandStalled` whose step has a byte left that the
  sink of the port's output stream never takes: the unit stays inside the step for ever (R257;
  spec/93_implementation_defined.md U5, "stuck"). Safe: the model stops, where the other unit of
  the hardware would go on. -/
  | sinkNeverReady (port : Port)
deriving DecidableEq, Repr

/-- Why the model gives no meaning. -/
inductive Refusal where
  /-- Raised by an arm of `exec` for an instruction without a meaning, under its mnemonic; no arm
  does. Safe: the model stops. -/
  | notModelled (mnemonic : String)
deriving DecidableEq, Repr

/-- The encoder unit after reset, and after `ENC_INIT` (R53, R112). -/
def Enc.reset : Enc :=
  { phase := .load, cause := .none, ct := [], acc := 0, nb := 0, pad := 0 }

/-- The decoder unit after reset, and after `DEC_INIT` (R53, R142). -/
def Dec.reset : Dec :=
  { phase := .load, cause := .none, nm := [], root := 0, padr := 0, cur := 0,
    dstate := .atRoot, hold := 0, holdv := false }

/-- The machine right after reset (R53, R250), with empty histories and no input yet. -/
def State.reset : State :=
  { enc := Enc.reset, dec := Dec.reset, eout := [], dout := [], inputs := [] }

end Sys2Proof.Machine
end

