-- ==== Sys2Proof/Machine/Flags.lean ====
section
/-! DEFINITION. The flags (spec/10_state.md R51): their codes, which phases accept which kind of
command (spec/40_encoder.md R117, spec/41_decoder.md R148), the pad count, and the two status
words (R32, R46). -/

namespace Sys2Proof.Machine

/-- The 2-bit value of `PHASE` (R26, R36). -/
def Phase.code : Phase → BitVec 2
  | .load => 0
  | .run => 1
  | .done => 2
  | .fault => 3

/-- The 4-bit value of `CAUSE` (R223). -/
def Cause.code : Cause → BitVec 4
  | .none => 0
  | .illegalCmd => 1
  | .protocol => 2
  | .noCode => 3
  | .codeOverflow => 4
  | .treeInvalid => 5
  | .truncated => 6
  | .padInvalid => 7

/-- The 1-bit value of `DSTATE` (R44). -/
def DState.code : DState → BitVec 1
  | .atRoot => 0
  | .descending => 1

/-- The phases that accept a command which loads a table, and `DEC_START` (R117, R148). -/
def whileLoading : Phase → Bool
  | .load => true
  | .run => false
  | .done => false
  | .fault => false

/-- The phases that accept `ENC_SYM` and `ENC_FLUSH` (R117). -/
def untilFlushed : Phase → Bool
  | .load => true
  | .run => true
  | .done => false
  | .fault => false

/-- The phases that accept `DEC_BYTE` and `DEC_END` (R148). -/
def whileRunning : Phase → Bool
  | .load => false
  | .run => true
  | .done => false
  | .fault => false

/-- The pad count that a flush with `nb` pending bits records: `8 - nb`, or 0 when none are pending
(R116). -/
def padOf (nb : BitVec 3) : Pad := if nb = 0 then 0 else BitVec.ofNat 3 (8 - nb.toNat)

/-- `ENC_STATUS`, from bit 31 down: reserved, ACC, reserved, NB, reserved, PAD, CAUSE, reserved,
PHASE (R32). -/
def encStatus (e : Enc) : Word :=
  0#8 ++ e.acc ++ 0#1 ++ e.nb ++ 0#1 ++ e.pad ++ e.cause.code ++ 0#2 ++ e.phase.code

/-- `DEC_STATUS`, from bit 31 down: HOLD, reserved, CUR, reserved, PADR, CAUSE, HOLDV, DSTATE,
PHASE (R46). -/
def decStatus (d : Dec) : Word :=
  d.hold ++ 0#3 ++ d.cur ++ 0#1 ++ d.padr ++ d.cause.code ++ BitVec.ofBool d.holdv ++
    d.dstate.code ++ d.phase.code

end Sys2Proof.Machine
end

