-- ==== Sys2Proof/Machine/Operands.lean ====
section
/-! DEFINITION. What the operand fields of the commands stand for, and the order of the bits of
codes and payload bytes (spec/30_encoding.md R83; spec/20_memory.md R63, R65), and the entries that
the physical layouts of the two memories stand for (spec/10_state.md R29, R39). -/

namespace Sys2Proof.Machine

/-- The count of `CT_APP`: `n = nm1 + 1`, 1 to 16 (R83). -/
def appendCount (nm1 : BitVec 4) : Nat := nm1.toNat + 1

/-- The bits `CT_APP` appends: `code[n-1]` first, down to `code[0]`; the bits above are ignored
(R83, R114). -/
def appendedBits (nm1 : BitVec 4) (code : BitVec 16) : Bits :=
  (List.range (appendCount nm1)).map fun j => code.getLsbD (appendCount nm1 - 1 - j)

/-- The bits of a payload byte in stream order: bit 7 first, bit 0 last (R63). -/
def byteBits (v : Byte) : Bits := (List.range 8).map fun j => v.getLsbD (7 - j)

/-- How many bits of the last payload byte are data (R147): 1 to 8. -/
def dataBits (padr : Pad) : Nat := 8 - padr.toNat

/-- The child that a bit selects: left on 0, right on 1 (R91). -/
def childOf (left right : NodeIdx) (b : Bool) : NodeIdx := if b then right else left

/-- The code that a physical code-table entry stands for: `BITS[LEN-1]` first, down to `BITS[0]`
(R29). The bits above the length are not read. -/
def codeOfLayout (len : BitVec 8) (bits : BitVec 255) : Bits :=
  (List.range len.toNat).map fun j => bits.getLsbD (len.toNat - 1 - j)

/-- The node that a physical node-memory entry stands for (R39): the valid bit, the leaf bit, and
the payload, which is not read when the valid bit is 0. -/
def nodeOfLayout (v lf : Bool) (payload : BitVec 18) : NodeEntry :=
  if v then
    if lf then .leaf (payload.extractLsb' 0 8)
    else .int (payload.extractLsb' 9 9) (payload.extractLsb' 0 9)
  else .invalid

end Sys2Proof.Machine
end

