-- ==== Sys2Proof/Machine/Ops.lean ====
section
/-! DEFINITION. The shared operations: the two memories, taking a fault and returning from one, the
bit packer of the encoder, the tree walk of the decoder, and the form every command has
(spec/20_memory.md, 40_encoder.md, 41_decoder.md, 60_exceptions.md). -/

namespace Sys2Proof.Machine

/-! ### The two memories -/

/-- The entry at index `k`: what the list holds there, else what an unlisted index reads as. -/
def Memory.read {α : Type} (blank : α) : Memory α → Nat → α
  | [], _ => blank
  | (a, v) :: rest, k => if a = k then v else Memory.read blank rest k

/-- The list with the entry `(k, v)` put before the first greater index. -/
def Memory.insert {α : Type} (k : Nat) (v : α) : Memory α → Memory α
  | [] => [(k, v)]
  | (a, x) :: rest => if k < a then (k, v) :: (a, x) :: rest else (a, x) :: Memory.insert k v rest

/-- The list without the entries at index `k`. -/
def Memory.erase {α : Type} (k : Nat) (m : Memory α) : Memory α := m.filter fun c => c.1 != k

/-- The memory with `v` at index `k`. Writing what an unlisted index reads as removes the entry. -/
def Memory.write {α : Type} [DecidableEq α] (blank : α) (m : Memory α) (k : Nat) (v : α) :
    Memory α :=
  if v = blank then m.erase k else (m.erase k).insert k v

/-- The canonical form of a memory of `size` entries: indices strictly rising and below `size`, and
no entry equal to what an unlisted index reads as. -/
def Memory.wf {α : Type} [DecidableEq α] (size : Nat) (blank : α) (m : Memory α) : Bool :=
  decide (m.Pairwise fun a b => a.1 < b.1) &&
    m.all fun c => decide (c.1 < size) && decide (c.2 ≠ blank)

/-- `ENC.CT[sym]` (R28, R61). -/
def Enc.code (e : Enc) (sym : Symbol) : Bits := Memory.read [] e.ct sym.toNat

/-- `ENC.CT[sym] <- c` (R61). -/
def Enc.setCode (e : Enc) (sym : Symbol) (c : Bits) : Enc :=
  { e with ct := Memory.write [] e.ct sym.toNat c }

/-- `DEC.NM[idx]` (R38, R62). -/
def Dec.node (d : Dec) (idx : NodeIdx) : NodeEntry := Memory.read .invalid d.nm idx.toNat

/-- `DEC.NM[idx] <- n` (R62). -/
def Dec.setNode (d : Dec) (idx : NodeIdx) (n : NodeEntry) : Dec :=
  { d with nm := Memory.write .invalid d.nm idx.toNat n }

/-! ### The outcome of a piece of a step -/

/-- What a stretch of a step's pseudocode leaves: the unit and the bytes emitted so far, and whether
the step goes on (`ran`) or a fault has ended it (`raised`, R222). -/
inductive Effect (σ : Type) where
  | ran (unit : σ) (out : List Byte)
  | raised (unit : σ) (out : List Byte)
deriving DecidableEq, Repr

/-- The unit after the stretch. -/
def Effect.unit {σ : Type} : Effect σ → σ
  | .ran u _ => u
  | .raised u _ => u

/-- The bytes the stretch emitted. -/
def Effect.out {σ : Type} : Effect σ → List Byte
  | .ran _ o => o
  | .raised _ o => o

/-- The stretch with bytes emitted before it. -/
def Effect.after {σ : Type} (o : List Byte) : Effect σ → Effect σ
  | .ran u o' => .ran u (o ++ o')
  | .raised u o' => .raised u (o ++ o')

/-- One stretch and then the next, which does not run when the first was ended by a fault (R222). -/
def Effect.andThen {σ : Type} (f : Effect σ) (g : σ → Effect σ) : Effect σ :=
  match f with
  | .ran u o => (g u).after o
  | .raised u o => .raised u o

/-- The machine after a step of ENC: the unit is replaced and its bytes are appended to `EOUT`;
DEC is not affected (R9, R222). -/
def State.afterEnc (s : State) (f : Effect Enc) : State :=
  { s with enc := f.unit, eout := s.eout ++ f.out }

/-- The machine after a step of DEC: the unit is replaced and its symbols are appended to `DOUT`;
ENC is not affected (R9, R222). -/
def State.afterDec (s : State) (f : Effect Dec) : State :=
  { s with dec := f.unit, dout := s.dout ++ f.out }

/-! ### Taking a fault, and the way back -/

/-- `raise EncFault(c)` (R222). -/
def Enc.raise (c : Cause) (e : Enc) : Effect Enc := .raised { e with phase := .fault, cause := c } []

/-- `raise DecFault(c)` (R222). -/
def Dec.raise (c : Cause) (d : Dec) : Effect Dec := .raised { d with phase := .fault, cause := c } []

/-- Return, and the start of a run: ENC in its reset state, `EOUT` untouched (R112, R234). -/
def State.initEnc (s : State) : State := { s with enc := Enc.reset }

/-- Return, and the start of a run: DEC in its reset state, `DOUT` untouched (R142, R234). -/
def State.initDec (s : State) : State := { s with dec := Dec.reset }

/-! ### The form of a command -/

/-- A command of ENC other than `ENC_INIT`: ignored in FAULT, PROTOCOL in a phase that does not
accept it, else its own rule (R110, R233, R225). -/
def encCommand (accepts : Phase → Bool) (rule : Enc → Effect Enc) (s : State) :
    Host.Outcome State Fault Refusal :=
  if s.enc.phase = .fault then .next s
  else if accepts s.enc.phase then .next (s.afterEnc (rule s.enc))
  else .next (s.afterEnc (s.enc.raise .protocol))

/-- A command of DEC other than `DEC_INIT`, in the same form (R140, R233, R225). -/
def decCommand (accepts : Phase → Bool) (rule : Dec → Effect Dec) (s : State) :
    Host.Outcome State Fault Refusal :=
  if s.dec.phase = .fault then .next s
  else if accepts s.dec.phase then .next (s.afterDec (rule s.dec))
  else .next (s.afterDec (s.dec.raise .protocol))

/-- A word that matches no row of its port: ignored in FAULT, else ILLEGAL_CMD in every phase
(R110, R140, R224, R233). -/
def illegalCommand (p : Port) (s : State) : Host.Outcome State Fault Refusal :=
  match p with
  | .enc => if s.enc.phase = .fault then .next s else .next (s.afterEnc (s.enc.raise .illegalCmd))
  | .dec => if s.dec.phase = .fault then .next s else .next (s.afterDec (s.dec.raise .illegalCmd))

/-! ### The bit packer of ENC -/

/-- `push_bit(b)` (R111): `b` into the next free position, most significant first; a full byte is
emitted. -/
def pushBit (b : Bool) (e : Enc) : Enc × List Byte :=
  let acc := e.acc ||| ((BitVec.ofBool b).setWidth 8 <<< (7 - e.nb.toNat))
  if e.nb = 7 then ({ e with acc := 0, nb := 0 }, [acc])
  else ({ e with acc := acc, nb := e.nb + 1 }, [])

/-- `push_bit` of each bit in turn (R115). -/
def pushBits : Bits → Enc → Enc × List Byte
  | [], e => (e, [])
  | b :: bs, e =>
    let r := pushBit b e
    let r' := pushBits bs r.1
    (r'.1, r.2 ++ r'.2)

/-! ### The tree walk of DEC -/

/-- `step_bit(b)` (R141): one transition of the decode state machine. -/
def stepBit (b : Bool) (d : Dec) : Effect Dec :=
  match d.node d.cur with
  | .invalid => d.raise .treeInvalid
  | .leaf _ => d.raise .treeInvalid
  | .int left right =>
    match d.node (childOf left right b) with
    | .invalid => d.raise .treeInvalid
    | .leaf sym => .ran { d with cur := d.root, dstate := .atRoot } [sym]
    | .int _ _ => .ran { d with cur := childOf left right b, dstate := .descending } []

/-- `step_bit` of each bit in turn, up to the first that raises a fault (R150). -/
def stepBits : Bits → Dec → Effect Dec
  | [], d => .ran d []
  | b :: bs, d => (stepBit b d).andThen (stepBits bs)

/-- `consume_bits(v, k)` (R150): the `k` most significant bits of `v`, bit 7 first. -/
def consumeBits (v : Byte) (k : Nat) (d : Dec) : Effect Dec := stepBits ((byteBits v).take k) d

/-! ### The host's side of the ports -/

/-- The state in which the host does these things next, in this order, before what it would do
otherwise (R71; log entry 1). -/
def State.given (s : State) (todo : List Input) : State := { s with inputs := todo ++ s.inputs }

end Sys2Proof.Machine
end

