-- ==== Sys2Proof/Machine/Decoder.lean ====
section
/-! DEFINITION. The six commands of DEC (spec/41_decoder.md). -/

namespace Sys2Proof.Machine

/-- `DEC_INIT` (R142): accepted in every phase. -/
def execDecInit (s : State) : Host.Outcome State Fault Refusal := .next s.initDec

/-- The own rule of `NM_LEAF` and `NM_INT` (R143, R144): one entry is overwritten. -/
def loadNode (idx : NodeIdx) (n : NodeEntry) (d : Dec) : Effect Dec := .ran (d.setNode idx n) []

/-- `NM_LEAF idx, sym` (R143). -/
def execNmLeaf (idx : NodeIdx) (sym : Symbol) (s : State) : Host.Outcome State Fault Refusal :=
  decCommand whileLoading (loadNode idx (.leaf sym)) s

/-- `NM_INT idx, left, right` (R144). -/
def execNmInt (idx left right : NodeIdx) (s : State) : Host.Outcome State Fault Refusal :=
  decCommand whileLoading (loadNode idx (.int left right)) s

/-- The own rule of `DEC_START` (R145): the root entry is not looked at, `DEC.HOLD` not written. -/
def startReading (root : NodeIdx) (pad : Pad) (d : Dec) : Effect Dec :=
  .ran { d with root := root, cur := root, padr := pad, dstate := .atRoot, holdv := false,
                phase := .run } []

/-- `DEC_START root, pad` (R145). -/
def execDecStart (root : NodeIdx) (pad : Pad) (s : State) : Host.Outcome State Fault Refusal :=
  decCommand whileLoading (startReading root pad) s

/-- The own rule of `DEC_BYTE` (R146): the held byte is consumed whole, then the new one is held. -/
def takeByte (byte : Byte) (d : Dec) : Effect Dec :=
  (if d.holdv then consumeBits d.hold 8 d else .ran d []).andThen fun d' =>
    .ran { d' with hold := byte, holdv := true } []

/-- `DEC_BYTE byte` (R146). -/
def execDecByte (byte : Byte) (s : State) : Host.Outcome State Fault Refusal :=
  decCommand whileRunning (takeByte byte) s

/-- The first half of `DEC_END` (R147): the data bits of the last byte, or the pad check of an
empty payload. -/
def takeLastByte (d : Dec) : Effect Dec :=
  if d.holdv then
    (consumeBits d.hold (dataBits d.padr) d).andThen fun d' => .ran { d' with holdv := false } []
  else if d.padr ≠ 0 then d.raise .padInvalid
  else .ran d []

/-- The second half of `DEC_END` (R147): the terminal condition of the decode state machine. -/
def endAtRoot (d : Dec) : Effect Dec :=
  if d.dstate ≠ .atRoot then d.raise .truncated else .ran { d with phase := .done } []

/-- The own rule of `DEC_END` (R147). -/
def endReading (d : Dec) : Effect Dec := (takeLastByte d).andThen endAtRoot

/-- `DEC_END` (R147). -/
def execDecEnd (s : State) : Host.Outcome State Fault Refusal :=
  decCommand whileRunning endReading s

end Sys2Proof.Machine
end

