-- ==== Sys2Proof/Machine/Encoder.lean ====
section
/-! DEFINITION. The five commands of ENC (spec/40_encoder.md). -/

namespace Sys2Proof.Machine

/-- `ENC_INIT` (R112): accepted in every phase. -/
def execEncInit (s : State) : Host.Outcome State Fault Refusal := .next s.initEnc

/-- The own rule of `CT_CLR` (R113). -/
def clearCode (sym : Symbol) (e : Enc) : Effect Enc := .ran (e.setCode sym []) []

/-- `CT_CLR sym` (R113). -/
def execCtClr (sym : Symbol) (s : State) : Host.Outcome State Fault Refusal :=
  encCommand whileLoading (clearCode sym) s

/-- The own rule of `CT_APP` (R114): the sum is a `Nat`, so it does not wrap. -/
def appendCode (sym : Symbol) (nm1 : BitVec 4) (code : BitVec 16) (e : Enc) : Effect Enc :=
  if (e.code sym).length + appendCount nm1 > Config.lMax then e.raise .codeOverflow
  else .ran (e.setCode sym (e.code sym ++ appendedBits nm1 code)) []

/-- `CT_APP sym, n, code` (R114). -/
def execCtApp (sym : Symbol) (nm1 : BitVec 4) (code : BitVec 16) (s : State) :
    Host.Outcome State Fault Refusal :=
  encCommand whileLoading (appendCode sym nm1 code) s

/-- The own rule of `ENC_SYM` (R115). -/
def encodeSymbol (sym : Symbol) (e : Enc) : Effect Enc :=
  if (e.code sym).length = 0 then e.raise .noCode
  else
    let r := pushBits (e.code sym) { e with phase := .run }
    .ran r.1 r.2

/-- `ENC_SYM sym` (R115). -/
def execEncSym (sym : Symbol) (s : State) : Host.Outcome State Fault Refusal :=
  encCommand untilFlushed (encodeSymbol sym) s

/-- The own rule of `ENC_FLUSH` (R116). -/
def flush (e : Enc) : Effect Enc :=
  .ran { e with pad := padOf e.nb, acc := 0, nb := 0, phase := .done }
    (if e.nb = 0 then [] else [e.acc])

/-- `ENC_FLUSH` (R116). -/
def execEncFlush (s : State) : Host.Outcome State Fault Refusal := encCommand untilFlushed flush s

end Sys2Proof.Machine
end

