-- ==== Sys2Proof/Machine/Dispatch.lean ====
section
/-! DEFINITION. The meaning of every command: one direct call per constructor of `Instr`. -/

namespace Sys2Proof.Machine

def exec (i : Instr) (s : State) : Host.Outcome State Fault Refusal :=
  match i with
  | .encInit => Sys2Proof.Machine.execEncInit s
  | .ctClr sym => Sys2Proof.Machine.execCtClr sym s
  | .ctApp sym nm1 code => Sys2Proof.Machine.execCtApp sym nm1 code s
  | .encSym sym => Sys2Proof.Machine.execEncSym sym s
  | .encFlush => Sys2Proof.Machine.execEncFlush s
  | .decInit => Sys2Proof.Machine.execDecInit s
  | .nmLeaf idx sym => Sys2Proof.Machine.execNmLeaf idx sym s
  | .nmInt idx left right => Sys2Proof.Machine.execNmInt idx left right s
  | .decStart root pad => Sys2Proof.Machine.execDecStart root pad s
  | .decByte byte => Sys2Proof.Machine.execDecByte byte s
  | .decEnd => Sys2Proof.Machine.execDecEnd s

end Sys2Proof.Machine
end

