-- ==== Sys2Proof/Machine/Ports.lean ====
section
/-! DEFINITION. What happens at the ports: an accepted word is decoded against the rows of its port
and executed; a sink may stop taking bytes; reset may come between steps or inside one
(spec/40_encoder.md R110, 41_decoder.md R140, 70_reset_and_hazards.md R250 to R258). -/

namespace Sys2Proof.Machine

/-- One whole step of a unit: the word `w` accepted at the port `p` (R10, R110, R140). -/
def acceptWord (p : Port) (w : Word) (s : State) : Host.Outcome State Fault Refusal :=
  match decode p w with
  | some i => exec i s
  | none => illegalCommand p s

/-- The history of the output stream of the unit behind the port. -/
def State.stream (s : State) : Port → List Byte
  | .enc => s.eout
  | .dec => s.dout

/-- The bytes by which the stream of the port `p` has grown from `s` to `t`. -/
def emittedAt (p : Port) (s t : State) : List Byte := (t.stream p).drop (s.stream p).length

/-- A step whose sink takes `handed` bytes and no more: if the step has a byte left it never ends
(R257, U5); otherwise it is an ordinary step. -/
def acceptStalled (p : Port) (w : Word) (handed : Nat) (s : State) :
    Host.Outcome State Fault Refusal :=
  match acceptWord p w s with
  | .next t => if handed < (emittedAt p s t).length then .fault (.sinkNeverReady p) else .next t
  | .fault r => .fault r
  | .refused r => .refused r

/-- The bytes that a unit has handed over when reset cuts its step (R253): the first `k` of those
the whole step would have emitted; nothing when the unit is between steps. -/
def handedBefore (p : Port) (cut : Option (Word × Nat)) (s : State) : List Byte :=
  match cut with
  | none => []
  | some (w, k) =>
    match acceptWord p w s with
    | .next t => (emittedAt p s t).take k
    | .fault _ => []
    | .refused _ => []

/-- Reset (R250, R253): both units in their reset state whatever they were doing; bytes already
handed over stay, the rest are never emitted. -/
def resetUnits (encCut decCut : Option (Word × Nat)) (s : State) : State :=
  { s with
    enc := Enc.reset
    dec := Dec.reset
    eout := s.eout ++ handedBefore .enc encCut s
    dout := s.dout ++ handedBefore .dec decCut s }

/-- What one input does to the machine. -/
def acceptInput (x : Input) (s : State) : Host.Outcome State Fault Refusal :=
  match x with
  | .command p w => acceptWord p w s
  | .commandStalled p w handed => acceptStalled p w handed s
  | .reset encCut decCut => .next (resetUnits encCut decCut s)

end Sys2Proof.Machine
end

