-- ==== Sys2Proof/Machine/Step.lean ====
section
/-! DEFINITION. One step of the machine: the next input is taken and done. -/

namespace Sys2Proof.Machine

/-- One step: the host's next input, in the order of acceptance (R71). With no input the machine does
nothing and keeps its state (spec/60_exceptions.md R242). -/
def step (s : State) : Host.Outcome State Fault Refusal :=
  match s.inputs with
  | [] => .next s
  | x :: rest => acceptInput x { s with inputs := rest }

/-- The state in which the host writes the word `w` next, to the port its opcode belongs to: the
very next step accepts exactly that word (log entry 9). -/
def State.withFetchWord (s : State) (nbits w : Nat) : State :=
  s.given [.command (portOfWord (tableWord nbits w)) (tableWord nbits w)]

end Sys2Proof.Machine
end

