-- ==== Sys2Proof/Machine/Assembler.lean ====
section
/-! DEFINITION. The assembler syntax and its pseudo-commands (spec/30_encoding.md R95, R96). An
assembler line has plain numbers as operands, so it can be ill-formed. -/

namespace Sys2Proof.Machine

/-- An assembler line: the eleven commands in the order of R95, then the three pseudo-commands of
R96. The count of `ctApp` is the count itself, 1 to 16, not the field `nm1`. -/
inductive AsmLine where
  | encInit
  | ctClr (sym : Nat)
  | ctApp (sym n code : Nat)
  | encSym (sym : Nat)
  | encFlush
  | decInit
  | nmLeaf (idx sym : Nat)
  | nmInt (idx left right : Nat)
  | decStart (root pad : Nat)
  | decByte (byte : Nat)
  | decEnd
  | ctSet (sym : Nat) (bits : Bits)
  | encStr (syms : List Nat)
  | decPayload (bytes : List Nat)
deriving DecidableEq, Repr

/-- The assembler constant `NONE`, the index a host leaves unwritten to stand for an absent child
(R41, R95). -/
def noneIdx : Nat := 511

/-- The operand is the number of a byte or a symbol. -/
def isByte (n : Nat) : Bool := decide (n < Config.nSym)

/-- The operand is a node index. -/
def isIdx (n : Nat) : Bool := decide (n < Config.nNode)

/-- The operands fit their fields (R82, R95), and the string of `CT_SET` has 1 to 255 bits (R96).
The `code` of `CT_APP` may be any number: only its low bits are used (R83, R95). -/
def AsmLine.wellFormed : AsmLine → Bool
  | .encInit => true
  | .ctClr sym => isByte sym
  | .ctApp sym n _ => isByte sym && decide (1 ≤ n) && decide (n ≤ Config.appMax)
  | .encSym sym => isByte sym
  | .encFlush => true
  | .decInit => true
  | .nmLeaf idx sym => isIdx idx && isByte sym
  | .nmInt idx left right => isIdx idx && isIdx left && isIdx right
  | .decStart root pad => isIdx root && decide (pad < 8)
  | .decByte byte => isByte byte
  | .decEnd => true
  | .ctSet sym bits =>
    isByte sym && decide (1 ≤ bits.length) && decide (bits.length ≤ Config.lMax)
  | .encStr syms => syms.all isByte
  | .decPayload bytes => bytes.all isByte

/-- A bit string read as a binary number, first bit most significant (R65, R96). -/
def bitsValue (bits : Bits) : Nat := bits.foldl (fun n b => 2 * n + b.toNat) 0

/-- The successive chunks of up to 16 bits, first chunk first (R96); `fuel` bounds their number. -/
def chunks : Nat → Bits → List Bits
  | 0, _ => []
  | fuel + 1, bits =>
    if bits.isEmpty then []
    else bits.take Config.appMax :: chunks fuel (bits.drop Config.appMax)

/-- The `CT_APP` commands that append a bit string to the code of a symbol (R96, R190). -/
def codeLoads (sym : Symbol) (bits : Bits) : List Instr :=
  (chunks bits.length bits).map fun c =>
    .ctApp sym (BitVec.ofNat 4 (c.length - 1)) (BitVec.ofNat 16 (bitsValue c))

/-- The commands that an assembler line stands for (R95, R96). -/
def AsmLine.assemble : AsmLine → List Instr
  | .encInit => [.encInit]
  | .ctClr sym => [.ctClr (BitVec.ofNat 8 sym)]
  | .ctApp sym n code =>
    [.ctApp (BitVec.ofNat 8 sym) (BitVec.ofNat 4 (n - 1)) (BitVec.ofNat 16 code)]
  | .encSym sym => [.encSym (BitVec.ofNat 8 sym)]
  | .encFlush => [.encFlush]
  | .decInit => [.decInit]
  | .nmLeaf idx sym => [.nmLeaf (BitVec.ofNat 9 idx) (BitVec.ofNat 8 sym)]
  | .nmInt idx left right =>
    [.nmInt (BitVec.ofNat 9 idx) (BitVec.ofNat 9 left) (BitVec.ofNat 9 right)]
  | .decStart root pad => [.decStart (BitVec.ofNat 9 root) (BitVec.ofNat 3 pad)]
  | .decByte byte => [.decByte (BitVec.ofNat 8 byte)]
  | .decEnd => [.decEnd]
  | .ctSet sym bits => .ctClr (BitVec.ofNat 8 sym) :: codeLoads (BitVec.ofNat 8 sym) bits
  | .encStr syms => syms.map fun c => .encSym (BitVec.ofNat 8 c)
  | .decPayload bytes => (bytes.map fun v => .decByte (BitVec.ofNat 8 v)) ++ [.decEnd]

end Sys2Proof.Machine
end

