-- ==== Sys2Proof/Machine/HostTree.lean ====
section
/-! DEFINITION. The host's tree and how the host drives the two units with it
(spec/42_host_software.md R186, R187, R190 to R192, R194). None of this is hardware: the claims about
whole runs need it to say what a table and a tree that belong together are. -/

namespace Sys2Proof.Machine

/-- A binary tree in which every internal node has two children and every leaf carries a symbol. -/
inductive CodeTree where
  | leaf (sym : Symbol)
  | node (left right : CodeTree)
deriving DecidableEq, Repr

/-- The code table of a tree: the path to each leaf, 0 for left and 1 for right, depth first
(R91, R187). -/
def CodeTree.codes : CodeTree → List (Symbol × Bits)
  | .leaf sym => [(sym, [])]
  | .node l r =>
    (l.codes.map fun c => (c.1, false :: c.2)) ++ (r.codes.map fun c => (c.1, true :: c.2))

/-- A tree the host may load: the empty tree, which has no nodes (R192, R194, R195), the
single-symbol tree, whose root has an absent right child (R186), or a tree with at least two leaves. -/
inductive HostTree where
  | empty
  | single (sym : Symbol)
  | full (left right : CodeTree)
deriving DecidableEq, Repr

/-- The code table of the host's tree (R187); the one symbol of a single-symbol tree has the code
"0" (R186), and the empty tree has no codes. -/
def HostTree.codes : HostTree → List (Symbol × Bits)
  | .empty => []
  | .single sym => [(sym, [false])]
  | .full l r => (CodeTree.node l r).codes

/-- The symbols of the tree's leaves, from left to right. -/
def HostTree.symbols (tr : HostTree) : List Symbol := tr.codes.map (·.1)

/-- The node memory of `d` holds the tree with its root at the index `i` (R38, R191). -/
def CodeTree.heldAt (d : Dec) : CodeTree → NodeIdx → Prop
  | .leaf sym, i => d.node i = .leaf sym
  | .node l r, i => ∃ a b, d.node i = .int a b ∧ l.heldAt d a ∧ r.heldAt d b

/-- The node memory of `d` holds the host's tree; the absent child of a single-symbol tree is an
entry left `INVALID` (R41, R186). The empty tree has no nodes, so any node memory holds it, whatever
the root index (R152, R195). -/
def HostTree.heldAt (d : Dec) : HostTree → NodeIdx → Prop
  | .empty, _ => True
  | .single sym, i => ∃ a b, d.node i = .int a b ∧ d.node a = .leaf sym ∧ d.node b = .invalid
  | .full l r, i => (CodeTree.node l r).heldAt d i

/-- The code table of `e` gives every symbol of the tree its code. -/
def HostTree.tabled (e : Enc) (tr : HostTree) : Prop := ∀ c ∈ tr.codes, e.code c.1 = c.2

/-- The number of nodes. -/
def CodeTree.size : CodeTree → Nat
  | .leaf _ => 1
  | .node l r => 1 + l.size + r.size

/-- The commands that load the tree, one for each node (R191), the nodes numbered in preorder from `i`
as R192 says. DESIGN CHOICE, log entry 14: that the list itself also stands in preorder. R191 gives
the loads no order and R255 calls it free, so a claim about the host's calls takes any permutation. -/
def CodeTree.loads : CodeTree → Nat → List Instr
  | .leaf sym, i => [.nmLeaf (BitVec.ofNat 9 i) sym]
  | .node l r, i =>
    .nmInt (BitVec.ofNat 9 i) (BitVec.ofNat 9 (i + 1)) (BitVec.ofNat 9 (i + 1 + l.size)) ::
      (l.loads (i + 1) ++ r.loads (i + 1 + l.size))

/-- The commands that load the host's tree, its root at index 0 (R186, R192): none for the empty tree
(R192). DESIGN CHOICE, log entry 14: their order, which R255 leaves free. -/
def HostTree.loads : HostTree → List Instr
  | .empty => []
  | .single sym => [.nmInt 0 1 (BitVec.ofNat 9 noneIdx), .nmLeaf 1 sym]
  | .full l r => (CodeTree.node l r).loads 0

/-- The host writes the command's word to the command's port. -/
def writes (cmds : List Instr) : List Input := cmds.map fun i => .command i.port (encode i)

/-- Driving ENC for one `encode` call (R190) with the code table as a list of entries. R190 gives the
entries no order: they are loaded in the order of the list, which is the caller's (log entry 14). -/
def encodeCall (table : List (Symbol × Bits)) (x : List Symbol) : List Instr :=
  .encInit :: ((table.flatMap fun c => codeLoads c.1 c.2) ++ x.map .encSym ++ [.encFlush])

/-- Driving DEC for one `decode` call (R191): the commands that load the nodes, in an order that is
the caller's (R255, log entry 14), the pad count and the payload. The root is index 0; for an empty
tree the host loads nothing and gives root 0 as well (R192). -/
def decodeCall (nodes : List Instr) (pad : Pad) (payload : List Byte) : List Instr :=
  .decInit :: (nodes ++ [.decStart 0 pad] ++ payload.map .decByte ++ [.decEnd])

end Sys2Proof.Machine
end

