-- ==== Sys2Proof/Safety.lean ====
section
/-! DEFINITION. The terms in which claims about whole runs are stated: runs of several steps, the
pending bits of the encoder, paths in the node memory, and the invariant of the machine. -/

namespace Sys2Proof.Machine

/-- `n` steps, stopping at the first fault or refusal. -/
def stepN : Nat → State → Host.Outcome State Fault Refusal
  | 0, s => .next s
  | n + 1, s =>
    match step s with
    | .next t => stepN n t
    | .fault r => .fault r
    | .refused r => .refused r

/-- The host does these things, one step each, starting from `s`. -/
def State.does (s : State) (todo : List Input) : Host.Outcome State Fault Refusal :=
  stepN todo.length (s.given todo)

/-- The input acts on the unit of the port `p`: a word for that port, or reset (R81, R250). -/
def Input.concerns (p : Port) : Input → Bool
  | .command q _ => q == p
  | .commandStalled q _ _ => q == p
  | .reset _ _ => true

/-- The pending bits of the encoder, oldest first: `ACC[7]` down to `ACC[8-NB]` (R30). -/
def Enc.pending (e : Enc) : Bits := (byteBits e.acc).take e.nb.toNat

/-- From the entry `a`, the bits lead through internal nodes only to the internal node `b`, `a`
itself included (R44). -/
def Dec.leads (d : Dec) : NodeIdx → Bits → NodeIdx → Prop
  | a, [], b => a = b ∧ ∃ l r, d.node a = .int l r
  | a, x :: xs, b => ∃ l r, d.node a = .int l r ∧ d.leads (childOf l r x) xs b

/-- What holds of the encoder in every state that a run reaches. -/
structure Enc.Inv (e : Enc) : Prop where
  /-- The code table keeps its canonical form (log entry 5). -/
  table : Memory.wf Config.nSym ([] : Bits) e.ct = true
  /-- No code is longer than 255 bits (R28). -/
  codes : ∀ sym, (e.code sym).length ≤ Config.lMax
  /-- The low `8 - NB` bits of ACC are zero (R30). -/
  free : ∀ j, j < 8 - e.nb.toNat → e.acc.getLsbD j = false
  /-- CAUSE is NONE exactly outside FAULT (R27). -/
  cause : e.cause = .none ↔ e.phase ≠ .fault
  /-- The causes of ENC (R27, R223). -/
  causes : e.cause = .none ∨ e.cause = .illegalCmd ∨ e.cause = .protocol ∨ e.cause = .noCode ∨
    e.cause = .codeOverflow
  /-- No symbol has been encoded in LOAD (R26), and no bits are pending in DONE (R116). -/
  flushed : e.phase = .load ∨ e.phase = .done → e.nb = 0
  /-- PAD is 0 until a flush (R31). -/
  unflushed : e.phase = .load ∨ e.phase = .run → e.pad = 0

/-- What holds of the decoder in every state that a run reaches. -/
structure Dec.Inv (d : Dec) : Prop where
  /-- The node memory keeps its canonical form (log entry 5). -/
  nodes : Memory.wf Config.nNode NodeEntry.invalid d.nm = true
  /-- CAUSE is NONE exactly outside FAULT (R37). -/
  cause : d.cause = .none ↔ d.phase ≠ .fault
  /-- The causes of DEC (R37, R223). -/
  causes : d.cause = .none ∨ d.cause = .illegalCmd ∨ d.cause = .protocol ∨
    d.cause = .treeInvalid ∨ d.cause = .truncated ∨ d.cause = .padInvalid
  /-- In LOAD every working register still has its reset value (R53, R148). -/
  unstarted : d.phase = .load → d.root = 0 ∧ d.padr = 0 ∧ d.hold = 0 ∧ d.holdv = false
  /-- Outside FAULT, AT_ROOT means that the position is the root (R44). -/
  atRoot : d.phase ≠ .fault → d.dstate = .atRoot → d.cur = d.root
  /-- In RUN, DESCENDING means that one or more bits led from the root through internal nodes to
  the position (R44). -/
  descending : d.phase = .run → d.dstate = .descending → ∃ bs, bs ≠ [] ∧ d.leads d.root bs d.cur
  /-- In RUN with nothing held, no bit has been consumed yet (R147). -/
  unheld : d.phase = .run → d.holdv = false → d.dstate = .atRoot
  /-- In LOAD and DONE the decode state machine is in AT_ROOT and nothing is held (R53, R147). -/
  resting : d.phase = .load ∨ d.phase = .done → d.dstate = .atRoot ∧ d.holdv = false

/-- The invariant of the machine. -/
structure State.Inv (s : State) : Prop where
  enc : s.enc.Inv
  dec : s.dec.Inv

end Sys2Proof.Machine
end

