-- ==== Sys2Proof/Certificates/Slice0/Obligations.lean ====
section
/-! DEFINITION. The statements for the provers. Each docstring names the rules of spec/ it formalises
or rests on. -/

open Sys2Proof Sys2Proof.Machine

/-! ### Encoding -/

/-- R82, R84, R95: decoding the word of a command, on a port the command may be written to, gives
that command back, with every operand at every value. -/
def Obligations.DecodeOfEncodeIsTheCommand : Prop :=
  ∀ (p : Port) (i : Instr), wellFormed p i = true → decode p (encode i) = some i

/-- R82, R84: a word that decodes is the word of the command it decodes to, and the command belongs
to the port; so no two words of a port stand for one command. -/
def Obligations.EncodeOfDecodeIsTheWord : Prop :=
  ∀ (p : Port) (w : Word) (i : Instr), decode p w = some i → encode i = w ∧ wellFormed p i = true

/-- R85: on each port, exactly one row of the opcode map matches a word, or none does; the word is
illegal when none does. -/
def Obligations.AtMostOneRowMatchesAWord : Prop :=
  ∀ (p : Port) (w : Word),
    (opcodeMap.filter fun r => r.accepts p w).length ≤ 1 ∧
    (decode p w = none ↔ (opcodeMap.filter fun r => r.accepts p w).length = 0)

/-- R86: which words are illegal on each port, and what executing one does: ILLEGAL_CMD, or nothing
when the unit is already in FAULT. -/
def Obligations.IllegalWordsAndTheirEffect : Prop :=
  (∀ w : Word, decode .enc w = none ↔
    (w.extractLsb' 28 4 ∈ [0, 6, 7, 14, 15] ∨ w.extractLsb' 28 4 ∈ [8, 9, 10, 11, 12, 13] ∨
      (w.extractLsb' 28 4 ∈ [1, 5] ∧ w.extractLsb' 0 28 ≠ 0) ∨
      (w.extractLsb' 28 4 ∈ [2, 4] ∧ w.extractLsb' 8 20 ≠ 0))) ∧
  (∀ w : Word, decode .dec w = none ↔
    (w.extractLsb' 28 4 ∈ [0, 6, 7, 14, 15] ∨ w.extractLsb' 28 4 ∈ [1, 2, 3, 4, 5] ∨
      (w.extractLsb' 28 4 ∈ [8, 13] ∧ w.extractLsb' 0 28 ≠ 0) ∨
      (w.extractLsb' 28 4 = 9 ∧ w.extractLsb' 17 11 ≠ 0) ∨
      (w.extractLsb' 28 4 = 10 ∧ w.extractLsb' 27 1 ≠ 0) ∨
      (w.extractLsb' 28 4 = 11 ∧ (w.extractLsb' 17 11 ≠ 0 ∨ w.extractLsb' 3 5 ≠ 0)) ∨
      (w.extractLsb' 28 4 = 12 ∧ w.extractLsb' 8 20 ≠ 0))) ∧
  (∀ p : Port, decode p 0x00000000 = none ∧ decode p 0xFFFFFFFF = none) ∧
  (∀ (w : Word) (s : State) (rest : List Input), decode .enc w = none →
    step { s with inputs := .command .enc w :: rest } =
      if s.enc.phase = .fault then .next { s with inputs := rest }
      else .next { s with
        enc := { s.enc with phase := .fault, cause := .illegalCmd }, inputs := rest }) ∧
  (∀ (w : Word) (s : State) (rest : List Input), decode .dec w = none →
    step { s with inputs := .command .dec w :: rest } =
      if s.dec.phase = .fault then .next { s with inputs := rest }
      else .next { s with
        dec := { s.dec with phase := .fault, cause := .illegalCmd }, inputs := rest })

/-- R82, R84: words written out from the formats decode to the commands they stand for
(spec/95_test_vectors.md X1, X3, X6, X10, X12, X14, X15, X16). -/
def Obligations.WrittenOutWordsDecode : Prop :=
  decode .enc 0b00010000000000000000000000000000 = some .encInit ∧
  decode .enc 0b00110100001000100000000000000110 = some (.ctApp 0x42 2 6) ∧
  decode .enc 0b01000000000000000000000001000001 = some (.encSym 0x41) ∧
  decode .dec 0b10010000000000011111111111111111 = some (.nmLeaf 511 0xFF) ∧
  decode .dec 0b10100000000110000000111000001000 = some (.nmInt 6 7 8) ∧
  decode .dec 0b10110000000000000000010100000110 = some (.decStart 5 6) ∧
  decode .dec 0b11000000000000000000000010001010 = some (.decByte 0x8A) ∧
  decode .dec 0b11010000000000000000000000000000 = some .decEnd

/-- R95: the word of every assembler line with operands in range. -/
def Obligations.AssemblerLinesHaveTheTableWords : Prop :=
  ∀ sym n code idx left right root pad byte : Nat,
    sym < 256 → 1 ≤ n → n ≤ 16 → idx < 512 → left < 512 → right < 512 → root < 512 → pad < 8 →
    byte < 256 →
    AsmLine.encInit.assemble.map encode = [0x10000000] ∧
    (AsmLine.ctClr sym).assemble.map encode = [0x20000000 ||| BitVec.ofNat 32 sym] ∧
    (AsmLine.ctApp sym n code).assemble.map encode =
      [0x30000000 ||| BitVec.ofNat 32 sym <<< 20 ||| BitVec.ofNat 32 (n - 1) <<< 16 |||
        (BitVec.ofNat 32 code &&& 0xFFFF)] ∧
    (AsmLine.encSym sym).assemble.map encode = [0x40000000 ||| BitVec.ofNat 32 sym] ∧
    AsmLine.encFlush.assemble.map encode = [0x50000000] ∧
    AsmLine.decInit.assemble.map encode = [0x80000000] ∧
    (AsmLine.nmLeaf idx sym).assemble.map encode =
      [0x90000000 ||| BitVec.ofNat 32 idx <<< 8 ||| BitVec.ofNat 32 sym] ∧
    (AsmLine.nmInt idx left right).assemble.map encode =
      [0xA0000000 ||| BitVec.ofNat 32 idx <<< 18 ||| BitVec.ofNat 32 left <<< 9 |||
        BitVec.ofNat 32 right] ∧
    (AsmLine.decStart root pad).assemble.map encode =
      [0xB0000000 ||| BitVec.ofNat 32 root <<< 8 ||| BitVec.ofNat 32 pad] ∧
    (AsmLine.decByte byte).assemble.map encode = [0xC0000000 ||| BitVec.ofNat 32 byte] ∧
    AsmLine.decEnd.assemble.map encode = [0xD0000000]

/-- R83, R114: the bits of `code` above the count do not change the effect of `CT_APP`. -/
def Obligations.CtAppIgnoresHighCodeBits : Prop :=
  ∀ (sym : Symbol) (nm1 : BitVec 4) (c c' : BitVec 16) (s : State),
    (∀ j, j ≤ nm1.toNat → c.getLsbD j = c'.getLsbD j) →
    exec (.ctApp sym nm1 c) s = exec (.ctApp sym nm1 c') s

/-- R29, R39, R114: on the physical layouts of the two memories, `CT_APP` is a shift, an or and an
add; a leaf and an internal node read back from their fields; the bits above the length of a code,
and those of an `INVALID` entry, are never read. (The layouts are not in State: log entry 5.) -/
def Obligations.PhysicalLayoutsStandForTheEntries : Prop :=
  (∀ (len : BitVec 8) (bits : BitVec 255) (nm1 : BitVec 4) (code : BitVec 16),
    len.toNat + (nm1.toNat + 1) ≤ 255 →
    codeOfLayout (len + BitVec.ofNat 8 (nm1.toNat + 1))
        (bits <<< (nm1.toNat + 1) ||| (code.extractLsb' 0 (nm1.toNat + 1)).setWidth 255) =
      codeOfLayout len bits ++ appendedBits nm1 code) ∧
  (∀ (len : BitVec 8) (bits bits' : BitVec 255),
    (∀ j, j < len.toNat → bits.getLsbD j = bits'.getLsbD j) →
    codeOfLayout len bits = codeOfLayout len bits') ∧
  (∀ (sym : Symbol) (high : BitVec 10), nodeOfLayout true true (high ++ sym) = .leaf sym) ∧
  (∀ left right : NodeIdx, nodeOfLayout true false (left ++ right) = .int left right) ∧
  (∀ (lf : Bool) (payload : BitVec 18), nodeOfLayout false lf payload = .invalid)

/-! ### Steps, inputs and reset -/

/-- R10, R110, R140, R242: a step takes the host's next word and executes the command that it decodes
to on the word's port; with no input the machine keeps its state. -/
def Obligations.StepRunsTheDecodedCommand : Prop :=
  (∀ (p : Port) (w : Word) (i : Instr) (s : State) (rest : List Input), decode p w = some i →
    step { s with inputs := .command p w :: rest } = exec i { s with inputs := rest }) ∧
  (∀ s : State, s.inputs = [] → step s = .next s)

/-- R87: every word on every port in every state has one defined effect, a next state. The machine
stops only where a sink never takes a byte of a step (R257; log entry 3), and never refuses. -/
def Obligations.OnlyASinkThatIsNeverReadyStopsTheMachine : Prop :=
  (∀ (p : Port) (w : Word) (s : State) (rest : List Input),
    ∃ t, step { s with inputs := .command p w :: rest } = .next t ∧ t.inputs = rest) ∧
  (∀ (s : State) (r : Refusal), step s ≠ .refused r) ∧
  (∀ (s : State) (f : Fault), step s = .fault f →
    ∃ p w handed rest, s.inputs = .commandStalled p w handed :: rest ∧ f = .sinkNeverReady p)

/-- R257, U5 of spec/93_implementation_defined.md, log entry 3: a sink that takes only the first
`handed` bytes leaves the unit stuck exactly when the step emits more; otherwise nothing is lost and
the step is the ordinary one. -/
def Obligations.StalledSinkStopsOnlyAStepWithBytesLeft : Prop :=
  ∀ (p : Port) (w : Word) (handed : Nat) (s u : State) (rest : List Input),
    step { s with inputs := .command p w :: rest } = .next u →
    step { s with inputs := .commandStalled p w handed :: rest } =
      if (s.stream p).length + handed < (u.stream p).length then .fault (.sinkNeverReady p)
      else .next u

/-- R253, R250: reset puts both units in their reset state whatever they were doing; of a step it cuts
short, the bytes already handed over stay on the stream and the rest are never emitted. -/
def Obligations.ResetKeepsOnlyTheBytesHandedOver : Prop :=
  ∀ (encCut decCut : Option (Word × Nat)) (s : State) (rest : List Input),
    ∃ be bd,
      step { s with inputs := .reset encCut decCut :: rest } =
        .next { enc := Enc.reset, dec := Dec.reset, eout := s.eout ++ be, dout := s.dout ++ bd,
                inputs := rest } ∧
      (encCut = none → be = []) ∧ (decCut = none → bd = []) ∧
      (∀ w k u, encCut = some (w, k) →
        step { s with inputs := .command .enc w :: rest } = .next u →
        s.eout ++ be = u.eout.take (s.eout.length + k)) ∧
      (∀ w k u, decCut = some (w, k) →
        step { s with inputs := .command .dec w :: rest } = .next u →
        s.dout ++ bd = u.dout.take (s.dout.length + k))

/-- R252: reset between steps does what `ENC_INIT` and then `DEC_INIT` do. -/
def Obligations.ResetIsThePairOfInits : Prop :=
  ∀ s : State, ∃ t,
    s.does [.reset none none] = .next t ∧ s.does (writes [.encInit, .decInit]) = .next t

/-- R53: the state after reset, after `ENC_INIT` for the rows of ENC, and after `DEC_INIT` for the
rows of DEC. -/
def Obligations.ResetAndInitLeaveTheTabledValues : Prop :=
  ∀ (s t : State) (rest : List Input),
    (t = State.reset ∨ step { s with inputs := .reset none none :: rest } = .next t ∨
      exec .encInit s = .next t →
      t.enc.phase = .load ∧ t.enc.cause = .none ∧ (∀ sym, t.enc.code sym = []) ∧
      t.enc.acc = 0 ∧ t.enc.nb = 0 ∧ t.enc.pad = 0 ∧ encStatus t.enc = 0x00000000) ∧
    (t = State.reset ∨ step { s with inputs := .reset none none :: rest } = .next t ∨
      exec .decInit s = .next t →
      t.dec.phase = .load ∧ t.dec.cause = .none ∧ (∀ i, t.dec.node i = .invalid) ∧
      t.dec.root = 0 ∧ t.dec.padr = 0 ∧ t.dec.cur = 0 ∧ t.dec.dstate = .atRoot ∧
      t.dec.hold = 0 ∧ t.dec.holdv = false ∧ decStatus t.dec = 0x00000000)

/-! ### The commands of ENC -/

/-- R112: `ENC_INIT` is accepted in every phase, puts ENC in its reset state, and touches neither
`EOUT` nor DEC; and no other word takes ENC out of DONE and FAULT. -/
def Obligations.EncInitResult : Prop :=
  decode .enc 0x10000000 = some .encInit ∧
  (∀ s : State, ∃ t, exec .encInit s = .next t ∧
    t.enc.phase = .load ∧ t.enc.cause = .none ∧ (∀ sym, t.enc.code sym = []) ∧
    t.enc.acc = 0 ∧ t.enc.nb = 0 ∧ t.enc.pad = 0 ∧ t = { s with enc := t.enc }) ∧
  (∀ (p : Port) (w : Word) (s t : State) (rest : List Input),
    step { s with inputs := .command p w :: rest } = .next t →
    s.enc.phase = .done ∨ s.enc.phase = .fault →
    t.enc.phase = .done ∨ t.enc.phase = .fault ∨ (p = .enc ∧ w = 0x10000000))

/-- R113: `CT_CLR` empties one code and changes nothing else; it is idempotent; it is a PROTOCOL fault
in RUN and DONE. -/
def Obligations.CtClrResult : Prop :=
  ∀ (sym : Symbol) (s : State),
    decode .enc (0x20000000 ||| sym.setWidth 32) = some (.ctClr sym) ∧
    (s.enc.phase = .load → ∃ t, exec (.ctClr sym) s = .next t ∧
      t.enc.code sym = [] ∧ (∀ y, y ≠ sym → t.enc.code y = s.enc.code y) ∧
      t = { s with enc := { s.enc with ct := t.enc.ct } } ∧
      exec (.ctClr sym) t = .next t) ∧
    (s.enc.phase = .run ∨ s.enc.phase = .done → exec (.ctClr sym) s =
      .next { s with enc := { s.enc with phase := .fault, cause := .protocol } })

/-- R114: `CT_APP` appends the low `n` bits of `code`, most significant first, to one code and changes
nothing else; it is CODE_OVERFLOW when the code would be longer than 255 bits, and a PROTOCOL fault in
RUN and DONE. -/
def Obligations.CtAppResult : Prop :=
  ∀ (sym : Symbol) (nm1 : BitVec 4) (code : BitVec 16) (s : State),
    decode .enc (0x30000000 ||| sym.setWidth 32 <<< 20 ||| nm1.setWidth 32 <<< 16 |||
      code.setWidth 32) = some (.ctApp sym nm1 code) ∧
    (s.enc.phase = .load → (s.enc.code sym).length + (nm1.toNat + 1) ≤ 255 →
      ∃ t added, exec (.ctApp sym nm1 code) s = .next t ∧
        t.enc.code sym = s.enc.code sym ++ added ∧ added.length = nm1.toNat + 1 ∧
        (∀ j, j ≤ nm1.toNat → added[j]? = some (code.getLsbD (nm1.toNat - j))) ∧
        (∀ y, y ≠ sym → t.enc.code y = s.enc.code y) ∧
        t = { s with enc := { s.enc with ct := t.enc.ct } }) ∧
    (s.enc.phase = .load → 255 < (s.enc.code sym).length + (nm1.toNat + 1) →
      exec (.ctApp sym nm1 code) s =
        .next { s with enc := { s.enc with phase := .fault, cause := .codeOverflow } }) ∧
    (s.enc.phase = .run ∨ s.enc.phase = .done → exec (.ctApp sym nm1 code) s =
      .next { s with enc := { s.enc with phase := .fault, cause := .protocol } })

/-- R115: `ENC_SYM` pushes the code of the symbol: the bits of the emitted bytes and then the bits
pending after are the bits pending before and then the code; `floor((NB + |c|) / 8)` bytes are
emitted and NB becomes `(NB + |c|) mod 8`. It is NO_CODE on an empty code and a PROTOCOL fault in
DONE. -/
def Obligations.EncSymResult : Prop :=
  ∀ (sym : Symbol) (s : State),
    decode .enc (0x40000000 ||| sym.setWidth 32) = some (.encSym sym) ∧
    (s.enc.Inv → s.enc.phase = .load ∨ s.enc.phase = .run → s.enc.code sym ≠ [] →
      ∃ t out, exec (.encSym sym) s = .next t ∧
        out.flatMap byteBits ++ t.enc.pending = s.enc.pending ++ s.enc.code sym ∧
        out.length = (s.enc.nb.toNat + (s.enc.code sym).length) / 8 ∧
        t.enc.nb.toNat = (s.enc.nb.toNat + (s.enc.code sym).length) % 8 ∧
        (∀ j, j < 8 - t.enc.nb.toNat → t.enc.acc.getLsbD j = false) ∧
        t = { s with enc := { s.enc with phase := .run, acc := t.enc.acc, nb := t.enc.nb },
                     eout := s.eout ++ out }) ∧
    (s.enc.phase = .load ∨ s.enc.phase = .run → s.enc.code sym = [] → exec (.encSym sym) s =
      .next { s with enc := { s.enc with phase := .fault, cause := .noCode } }) ∧
    (s.enc.phase = .done → exec (.encSym sym) s =
      .next { s with enc := { s.enc with phase := .fault, cause := .protocol } })

/-- R116: `ENC_FLUSH` emits the pending bits as one last byte, if there are any, records how many of
its bits are unused, and ends the payload; a second flush is a PROTOCOL fault. -/
def Obligations.EncFlushResult : Prop :=
  decode .enc 0x50000000 = some .encFlush ∧
  ∀ s : State,
    (s.enc.phase = .load ∨ s.enc.phase = .run → ∃ t pad, exec .encFlush s = .next t ∧
      t = { s with enc := { s.enc with pad := pad, acc := 0, nb := 0, phase := .done },
                   eout := s.eout ++ if s.enc.nb = 0 then [] else [s.enc.acc] } ∧
      (s.enc.nb ≠ 0 → pad.toNat = 8 - s.enc.nb.toNat) ∧ (s.enc.nb = 0 → pad = 0) ∧
      (s.enc.Inv → ∀ j, j < pad.toNat → s.enc.acc.getLsbD j = false)) ∧
    (s.enc.phase = .done → exec .encFlush s =
      .next { s with enc := { s.enc with phase := .fault, cause := .protocol } })

/-- R118: how many bytes one command emits on `EOUT`. -/
def Obligations.BytesEmittedByOneEncCommand : Prop :=
  ∀ (i : Instr) (s : State), s.enc.Inv → ∃ t, exec i s = .next t ∧
    t.eout.length ≤ s.eout.length +
      (match i with
        | .encSym _ => 32
        | .encFlush => 1
        | _ => 0)

/-! ### Faults -/

/-- R225: a well-formed command in a phase that does not allow it is a PROTOCOL fault, which changes
PHASE and CAUSE and nothing else (the phases are those of R117 and R148). -/
def Obligations.CommandInAWrongPhaseIsAProtocolFault : Prop :=
  ∀ (i : Instr) (s : State),
    ((match i, s.enc.phase with
      | .ctClr _, .run => True
      | .ctClr _, .done => True
      | .ctApp _ _ _, .run => True
      | .ctApp _ _ _, .done => True
      | .encSym _, .done => True
      | .encFlush, .done => True
      | _, _ => False) →
      exec i s = .next { s with enc := { s.enc with phase := .fault, cause := .protocol } }) ∧
    ((match i, s.dec.phase with
      | .nmLeaf _ _, .run => True
      | .nmLeaf _ _, .done => True
      | .nmInt _ _ _, .run => True
      | .nmInt _ _ _, .done => True
      | .decStart _ _, .run => True
      | .decStart _ _, .done => True
      | .decByte _, .load => True
      | .decByte _, .done => True
      | .decEnd, .load => True
      | .decEnd, .done => True
      | _, _ => False) →
      exec i s = .next { s with dec := { s.dec with phase := .fault, cause := .protocol } })

/-- R233: in FAULT a unit takes every word and does nothing with it, unless the word is exactly its
INIT command. -/
def Obligations.FaultIgnoresEveryWordButInit : Prop :=
  ∀ (w : Word) (s : State) (rest : List Input),
    (s.enc.phase = .fault → w ≠ 0x10000000 →
      step { s with inputs := .command .enc w :: rest } = .next { s with inputs := rest }) ∧
    (s.dec.phase = .fault → w ≠ 0x80000000 →
      step { s with inputs := .command .dec w :: rest } = .next { s with inputs := rest })

/-- R222, R235: a word that puts ENC into FAULT changes nothing but PHASE and CAUSE; a word that puts
DEC into FAULT leaves the node memory, the root, the pad count and the held byte as they were, takes
no emitted symbol back, and does not affect ENC. -/
def Obligations.FaultEntryKeepsTheRestOfTheUnit : Prop :=
  ∀ (w : Word) (s t : State) (rest : List Input),
    (s.enc.phase ≠ .fault → step { s with inputs := .command .enc w :: rest } = .next t →
      t.enc.phase = .fault →
      ∃ c, c ≠ .none ∧
        t = { s with enc := { s.enc with phase := .fault, cause := c }, inputs := rest }) ∧
    (s.dec.phase ≠ .fault → step { s with inputs := .command .dec w :: rest } = .next t →
      t.dec.phase = .fault →
      ∃ c out, c ≠ .none ∧
        t = { s with
          dec := { s.dec with phase := .fault, cause := c, cur := t.dec.cur,
                              dstate := t.dec.dstate, holdv := t.dec.holdv },
          dout := s.dout ++ out, inputs := rest })

/-! ### The commands of DEC -/

/-- R142: `DEC_INIT` is accepted in every phase, puts DEC in its reset state, and touches neither
`DOUT` nor ENC; and no other word takes DEC out of DONE and FAULT. -/
def Obligations.DecInitResult : Prop :=
  decode .dec 0x80000000 = some .decInit ∧
  (∀ s : State, ∃ t, exec .decInit s = .next t ∧
    t.dec.phase = .load ∧ t.dec.cause = .none ∧ (∀ i, t.dec.node i = .invalid) ∧
    t.dec.root = 0 ∧ t.dec.padr = 0 ∧ t.dec.cur = 0 ∧ t.dec.dstate = .atRoot ∧
    t.dec.hold = 0 ∧ t.dec.holdv = false ∧ t = { s with dec := t.dec }) ∧
  (∀ (p : Port) (w : Word) (s t : State) (rest : List Input),
    step { s with inputs := .command p w :: rest } = .next t →
    s.dec.phase = .done ∨ s.dec.phase = .fault →
    t.dec.phase = .done ∨ t.dec.phase = .fault ∨ (p = .dec ∧ w = 0x80000000))

/-- R143: `NM_LEAF` loads one entry with a leaf and changes nothing else; it is idempotent; it is a
PROTOCOL fault in RUN and DONE. -/
def Obligations.NmLeafResult : Prop :=
  ∀ (idx : NodeIdx) (sym : Symbol) (s : State),
    decode .dec (0x90000000 ||| idx.setWidth 32 <<< 8 ||| sym.setWidth 32) =
      some (.nmLeaf idx sym) ∧
    (s.dec.phase = .load → ∃ t, exec (.nmLeaf idx sym) s = .next t ∧
      t.dec.node idx = .leaf sym ∧ (∀ j, j ≠ idx → t.dec.node j = s.dec.node j) ∧
      t = { s with dec := { s.dec with nm := t.dec.nm } } ∧
      exec (.nmLeaf idx sym) t = .next t) ∧
    (s.dec.phase = .run ∨ s.dec.phase = .done → exec (.nmLeaf idx sym) s =
      .next { s with dec := { s.dec with phase := .fault, cause := .protocol } })

/-- R144: `NM_INT` loads one entry with an internal node and changes nothing else; it is idempotent;
it is a PROTOCOL fault in RUN and DONE. -/
def Obligations.NmIntResult : Prop :=
  ∀ (idx left right : NodeIdx) (s : State),
    decode .dec (0xA0000000 ||| idx.setWidth 32 <<< 18 ||| left.setWidth 32 <<< 9 |||
      right.setWidth 32) = some (.nmInt idx left right) ∧
    (s.dec.phase = .load → ∃ t, exec (.nmInt idx left right) s = .next t ∧
      t.dec.node idx = .int left right ∧ (∀ j, j ≠ idx → t.dec.node j = s.dec.node j) ∧
      t = { s with dec := { s.dec with nm := t.dec.nm } } ∧
      exec (.nmInt idx left right) t = .next t) ∧
    (s.dec.phase = .run ∨ s.dec.phase = .done → exec (.nmInt idx left right) s =
      .next { s with dec := { s.dec with phase := .fault, cause := .protocol } })

/-- R145: `DEC_START` records the root and the pad count and starts at the root with nothing held,
whatever the node memory holds; `DEC.HOLD` is not written; it is a PROTOCOL fault in RUN and DONE. -/
def Obligations.DecStartResult : Prop :=
  ∀ (root : NodeIdx) (pad : Pad) (s : State),
    decode .dec (0xB0000000 ||| root.setWidth 32 <<< 8 ||| pad.setWidth 32) =
      some (.decStart root pad) ∧
    (s.dec.phase = .load → exec (.decStart root pad) s =
      .next { s with dec := { s.dec with root := root, cur := root, padr := pad,
                                         dstate := .atRoot, holdv := false, phase := .run } }) ∧
    (s.dec.phase = .run ∨ s.dec.phase = .done → exec (.decStart root pad) s =
      .next { s with dec := { s.dec with phase := .fault, cause := .protocol } })

/-- R141, R91: one transition of the decode state machine: bit 0 selects the left child and bit 1
the right; a leaf is emitted and the position returns to the root; an internal node becomes the
position; a current entry that is not internal, or a child that is INVALID, raises TREE_INVALID,
which moves and emits nothing. -/
def Obligations.StepBitFollowsTheSelectedChild : Prop :=
  ∀ (b : Bool) (d : Dec),
    ((∀ l r, d.node d.cur ≠ .int l r) →
      stepBit b d = .raised { d with phase := .fault, cause := .treeInvalid } []) ∧
    (∀ l r, d.node d.cur = .int l r →
      (d.node (if b then r else l) = .invalid →
        stepBit b d = .raised { d with phase := .fault, cause := .treeInvalid } []) ∧
      (∀ sym, d.node (if b then r else l) = .leaf sym →
        stepBit b d = .ran { d with cur := d.root, dstate := .atRoot } [sym]) ∧
      (∀ l' r', d.node (if b then r else l) = .int l' r' →
        stepBit b d = .ran { d with cur := if b then r else l, dstate := .descending } []))

/-- R150: `consume_bits` feeds the most significant bits of a byte to `step_bit`, bit 7 first; it stops
at the first bit that raises a fault, symbols emitted by earlier bits stay emitted, and `k` bits emit
at most `k` symbols. -/
def Obligations.ConsumeBitsStopsAtTheFirstFault : Prop :=
  ∀ (v : Byte) (d : Dec),
    consumeBits v 0 d = .ran d [] ∧
    ∀ k, k < 8 →
      (∀ u o, consumeBits v k d = .raised u o → consumeBits v (k + 1) d = .raised u o) ∧
      (∀ u o u' o', consumeBits v k d = .ran u o → stepBit (v.getLsbD (7 - k)) u = .ran u' o' →
        consumeBits v (k + 1) d = .ran u' (o ++ o')) ∧
      (∀ u o u' o', consumeBits v k d = .ran u o → stepBit (v.getLsbD (7 - k)) u = .raised u' o' →
        consumeBits v (k + 1) d = .raised u' (o ++ o')) ∧
      (consumeBits v (k + 1) d).out.length ≤ k + 1

/-- R146: `DEC_BYTE` consumes the byte held, if any, whole, and then holds the new one; a bit that
raises TREE_INVALID ends the step, with the symbols of the bits before it emitted and the old byte
still held; it is a PROTOCOL fault in LOAD and DONE. -/
def Obligations.DecByteResult : Prop :=
  ∀ (byte : Byte) (s : State),
    decode .dec (0xC0000000 ||| byte.setWidth 32) = some (.decByte byte) ∧
    (s.dec.phase = .run → s.dec.holdv = false → exec (.decByte byte) s =
      .next { s with dec := { s.dec with hold := byte, holdv := true } }) ∧
    (s.dec.phase = .run → s.dec.holdv = true → ∀ d out,
      stepBits (byteBits s.dec.hold) s.dec = .ran d out → exec (.decByte byte) s =
        .next { s with dec := { s.dec with cur := d.cur, dstate := d.dstate, hold := byte },
                       dout := s.dout ++ out }) ∧
    (s.dec.phase = .run → s.dec.holdv = true → ∀ d out,
      stepBits (byteBits s.dec.hold) s.dec = .raised d out → exec (.decByte byte) s =
        .next { s with dec := { s.dec with cur := d.cur, dstate := d.dstate, phase := .fault,
                                           cause := .treeInvalid },
                       dout := s.dout ++ out }) ∧
    (s.dec.phase = .load ∨ s.dec.phase = .done → exec (.decByte byte) s =
      .next { s with dec := { s.dec with phase := .fault, cause := .protocol } })

/-- R147: `DEC_END` consumes the `8 - PADR` most significant bits of the byte held and tests the
terminal condition: DONE in AT_ROOT, TRUNCATED otherwise; TREE_INVALID at a bit comes first and leaves
the byte held; with nothing held and a pad count other than 0 it is PAD_INVALID; it is a PROTOCOL
fault in LOAD and DONE. -/
def Obligations.DecEndResult : Prop :=
  decode .dec 0xD0000000 = some .decEnd ∧
  ∀ s : State,
    (s.dec.phase = .run → s.dec.holdv = true → ∀ d out,
      stepBits ((byteBits s.dec.hold).take (8 - s.dec.padr.toNat)) s.dec = .ran d out →
      (d.dstate = .atRoot → exec .decEnd s =
        .next { s with dec := { s.dec with cur := d.cur, dstate := .atRoot, holdv := false,
                                           phase := .done },
                       dout := s.dout ++ out }) ∧
      (d.dstate = .descending → exec .decEnd s =
        .next { s with dec := { s.dec with cur := d.cur, dstate := .descending, holdv := false,
                                           phase := .fault, cause := .truncated },
                       dout := s.dout ++ out })) ∧
    (s.dec.phase = .run → s.dec.holdv = true → ∀ d out,
      stepBits ((byteBits s.dec.hold).take (8 - s.dec.padr.toNat)) s.dec = .raised d out →
      exec .decEnd s =
        .next { s with dec := { s.dec with cur := d.cur, dstate := d.dstate, phase := .fault,
                                           cause := .treeInvalid },
                       dout := s.dout ++ out }) ∧
    (s.dec.phase = .run → s.dec.holdv = false → s.dec.padr ≠ 0 → exec .decEnd s =
      .next { s with dec := { s.dec with phase := .fault, cause := .padInvalid } }) ∧
    (s.dec.phase = .run → s.dec.holdv = false → s.dec.padr = 0 →
      (s.dec.dstate = .atRoot → exec .decEnd s =
        .next { s with dec := { s.dec with phase := .done } }) ∧
      (s.dec.dstate = .descending → exec .decEnd s =
        .next { s with dec := { s.dec with phase := .fault, cause := .truncated } })) ∧
    (s.dec.phase = .load ∨ s.dec.phase = .done → exec .decEnd s =
      .next { s with dec := { s.dec with phase := .fault, cause := .protocol } })

/-- R154: the pad bits of the last byte are not inspected: two last bytes that differ in them alone
give the same step. -/
def Obligations.PadBitsAreNotInspected : Prop :=
  ∀ (s : State) (v : Byte),
    (∀ j, s.dec.padr.toNat ≤ j → s.dec.hold.getLsbD j = v.getLsbD j) →
    ∃ t, exec .decEnd s = .next t ∧
      exec .decEnd { s with dec := { s.dec with hold := v } } =
        .next { t with dec := { t.dec with hold := v } }

/-- R150, R147: how many symbols one command emits on `DOUT`. -/
def Obligations.SymbolsEmittedByOneDecCommand : Prop :=
  ∀ (i : Instr) (s : State), ∃ t, exec i s = .next t ∧
    t.dout.length ≤ s.dout.length +
      (match i with
        | .decByte _ => 8
        | .decEnd => 8 - s.dec.padr.toNat
        | _ => 0)

/-! ### Status words -/

/-- R32: the layout of `ENC_STATUS`, its CAUSE field with the codes of R223. -/
def Obligations.EncStatusLayout : Prop :=
  ∀ e : Enc,
    (encStatus e).extractLsb' 0 2 =
      (match e.phase with
        | .load => 0
        | .run => 1
        | .done => 2
        | .fault => 3) ∧
    (encStatus e).extractLsb' 2 2 = 0 ∧
    (encStatus e).extractLsb' 4 4 =
      (match e.cause with
        | .none => 0
        | .illegalCmd => 1
        | .protocol => 2
        | .noCode => 3
        | .codeOverflow => 4
        | .treeInvalid => 5
        | .truncated => 6
        | .padInvalid => 7) ∧
    (encStatus e).extractLsb' 8 3 = e.pad ∧
    (encStatus e).extractLsb' 11 1 = 0 ∧
    (encStatus e).extractLsb' 12 3 = e.nb ∧
    (encStatus e).extractLsb' 15 1 = 0 ∧
    (encStatus e).extractLsb' 16 8 = e.acc ∧
    (encStatus e).extractLsb' 24 8 = 0

/-- R46: the layout of `DEC_STATUS`, its CAUSE field with the codes of R223. -/
def Obligations.DecStatusLayout : Prop :=
  ∀ d : Dec,
    (decStatus d).extractLsb' 0 2 =
      (match d.phase with
        | .load => 0
        | .run => 1
        | .done => 2
        | .fault => 3) ∧
    (decStatus d).extractLsb' 2 1 =
      (match d.dstate with
        | .atRoot => 0
        | .descending => 1) ∧
    (decStatus d).extractLsb' 3 1 = (if d.holdv then 1 else 0) ∧
    (decStatus d).extractLsb' 4 4 =
      (match d.cause with
        | .none => 0
        | .illegalCmd => 1
        | .protocol => 2
        | .noCode => 3
        | .codeOverflow => 4
        | .treeInvalid => 5
        | .truncated => 6
        | .padInvalid => 7) ∧
    (decStatus d).extractLsb' 8 3 = d.padr ∧
    (decStatus d).extractLsb' 11 1 = 0 ∧
    (decStatus d).extractLsb' 12 9 = d.cur ∧
    (decStatus d).extractLsb' 21 3 = 0 ∧
    (decStatus d).extractLsb' 24 8 = d.hold

/-- R27, R37, R223: the CAUSE field of a status word is 0 exactly outside FAULT, and in FAULT it is one
of the codes of its unit; 8 to 15 never appear. -/
def Obligations.StatusShowsACauseOfItsUnit : Prop :=
  ∀ s : State, s.Inv →
    ((encStatus s.enc).extractLsb' 4 4 = 0 ↔ (encStatus s.enc).extractLsb' 0 2 ≠ 3) ∧
    ((encStatus s.enc).extractLsb' 4 4).toNat ∈ [0, 1, 2, 3, 4] ∧
    ((decStatus s.dec).extractLsb' 4 4 = 0 ↔ (decStatus s.dec).extractLsb' 0 2 ≠ 3) ∧
    ((decStatus s.dec).extractLsb' 4 4).toNat ∈ [0, 1, 2, 5, 6, 7]

/-! ### The whole machine -/

/-- The invariant holds after reset (R53). -/
def Obligations.ResetMeetsTheInvariant : Prop := State.reset.Inv

/-- R27, R28, R30, R37, R44: every step keeps the invariant of the machine. -/
def Obligations.EveryStepKeepsTheInvariant : Prop :=
  ∀ s t : State, s.Inv → step s = .next t → t.Inv

/-- R9, R20: a word on one port leaves the other unit and its stream alone, and what it does to its
own unit and stream does not depend on the other. -/
def Obligations.AWordReachesOnlyItsOwnUnit : Prop :=
  ∀ (w : Word) (s s' : State) (rest rest' : List Input),
    (∃ t, step { s with inputs := .command .enc w :: rest } = .next t ∧
      t.dec = s.dec ∧ t.dout = s.dout ∧
      (s'.enc = s.enc → s'.eout = s.eout →
        step { s' with inputs := .command .enc w :: rest' } =
          .next { s' with enc := t.enc, eout := t.eout, inputs := rest' })) ∧
    (∃ t, step { s with inputs := .command .dec w :: rest } = .next t ∧
      t.enc = s.enc ∧ t.eout = s.eout ∧
      (s'.dec = s.dec → s'.dout = s.dout →
        step { s' with inputs := .command .dec w :: rest' } =
          .next { s' with dec := t.dec, dout := t.dout, inputs := rest' }))

/-- R9: any interleaving of the two units' steps, with resets anywhere, gives each unit the same
result as running it alone. -/
def Obligations.InterleavingGivesEachUnitItsOwnRun : Prop :=
  ∀ (todo : List Input) (s t : State), s.does todo = .next t →
    (∃ u, s.does (todo.filter (Input.concerns .enc)) = .next u ∧ u.enc = t.enc ∧ u.eout = t.eout) ∧
    (∃ u, s.does (todo.filter (Input.concerns .dec)) = .next u ∧ u.dec = t.dec ∧ u.dout = t.dout)

/-- R11, R112, R142, R221, R253: a byte once handed over stays on its stream, whatever happens. -/
def Obligations.StreamsOnlyGrow : Prop :=
  ∀ s t : State, step s = .next t → s.eout <+: t.eout ∧ s.dout <+: t.dout

/-- R74, R117, R148: from the first symbol or `DEC_START` on, the tables cannot change until the
unit's INIT or reset empties them. -/
def Obligations.TablesAreFrozenAfterLoading : Prop :=
  ∀ s t : State, step s = .next t →
    (s.enc.phase ≠ .load → t.enc.ct = s.enc.ct ∨ t.enc = Enc.reset) ∧
    (s.dec.phase ≠ .load → t.dec.nm = s.dec.nm ∨ t.dec = Dec.reset)

/-- R50: a step changes a table only by executing one of the two commands that load it, or by emptying
it in its unit's INIT or in reset. -/
def Obligations.TablesAreWrittenOnlyByTheirCommands : Prop :=
  ∀ (s t : State), step s = .next t →
    (t.enc.ct ≠ s.enc.ct → ∃ x rest, s.inputs = x :: rest ∧
      ((∃ c d, x = .reset c d) ∨
        ∃ w i, (x = .command .enc w ∨ ∃ k, x = .commandStalled .enc w k) ∧
          decode .enc w = some i ∧
          (i = .encInit ∨ (∃ sym, i = .ctClr sym) ∨ ∃ sym nm1 code, i = .ctApp sym nm1 code))) ∧
    (t.dec.nm ≠ s.dec.nm → ∃ x rest, s.inputs = x :: rest ∧
      ((∃ c d, x = .reset c d) ∨
        ∃ w i, (x = .command .dec w ∨ ∃ k, x = .commandStalled .dec w k) ∧
          decode .dec w = some i ∧
          (i = .decInit ∨ (∃ idx sym, i = .nmLeaf idx sym) ∨
            ∃ idx left right, i = .nmInt idx left right)))

/-! ### Runs -/

/-- R96: `CT_SET` leaves exactly the given bit string, of 1 to 255 bits, as the code of the symbol, and
changes nothing else. -/
def Obligations.CtSetLoadsTheWholeCode : Prop :=
  ∀ (sym : Nat) (bits : Bits) (s : State), (AsmLine.ctSet sym bits).wellFormed = true →
    s.enc.phase = .load →
    ∃ t, s.does (writes (AsmLine.ctSet sym bits).assemble) = .next t ∧
      t.enc.code (BitVec.ofNat 8 sym) = bits ∧
      (∀ y, y ≠ BitVec.ofNat 8 sym → t.enc.code y = s.enc.code y) ∧
      t = { s with enc := { s.enc with ct := t.enc.ct } }

/-- R152: an empty payload with pad count 0 ends in DONE with no output, whatever the root is and
whatever the node memory holds. -/
def Obligations.EmptyPayloadDecodesToNothing : Prop :=
  ∀ (root : NodeIdx) (s : State), s.dec.phase = .load →
    ∃ t, s.does (writes [.decStart root 0, .decEnd]) = .next t ∧
      t.dec.phase = .done ∧ t.dec.cause = s.dec.cause ∧ t.dout = s.dout ∧
      t.enc = s.enc ∧ t.eout = s.eout

/-- R119, R93: the result of a run of ENC: the bytes emitted are the payload of the concatenated codes,
the first bit in bit 7 of the first byte, zeros after the last bit, and PAD is the number of those
zeros. -/
def Obligations.EncoderRunPacksTheCodes : Prop :=
  ∀ (s u : State) (loads : List Instr) (x : List Symbol),
    (∀ i ∈ loads, (∃ sym, i = .ctClr sym) ∨ ∃ sym nm1 code, i = .ctApp sym nm1 code) →
    s.does (writes (.encInit :: loads)) = .next u → u.enc.phase = .load →
    (∀ y ∈ x, u.enc.code y ≠ []) →
    ∃ t out,
      s.does (writes (.encInit :: loads ++ x.map .encSym ++ [.encFlush])) = .next t ∧
      t.eout = s.eout ++ out ∧
      out.length = ((x.flatMap u.enc.code).length + 7) / 8 ∧
      (∀ k j, k < out.length → j < 8 →
        (out.getD k 0).getLsbD (7 - j) = (x.flatMap u.enc.code).getD (8 * k + j) false) ∧
      t.enc.pad.toNat = (8 - (x.flatMap u.enc.code).length % 8) % 8 ∧
      8 * out.length - t.enc.pad.toNat = (x.flatMap u.enc.code).length ∧
      t.enc.phase = .done ∧ t.enc.ct = u.enc.ct ∧
      t.dec = s.dec ∧ t.dout = s.dout ∧ t.inputs = s.inputs

/-- R151: the result of a run of DEC: the first `8k - pad` bits of the payload are fed to `step_bit`,
one at a time, from AT_ROOT at the root. -/
def Obligations.DecoderRunWalksTheDataBits : Prop :=
  ∀ (s u : State) (loads : List Instr) (root : NodeIdx) (pad : Pad) (v : List Byte),
    (∀ i ∈ loads, (∃ idx sym, i = .nmLeaf idx sym) ∨ ∃ idx l r, i = .nmInt idx l r) →
    s.does (writes (.decInit :: loads)) = .next u →
    ∃ t,
      s.does (writes (.decInit :: loads ++ [.decStart root pad] ++ v.map .decByte ++ [.decEnd])) =
        .next t ∧
      t.enc = s.enc ∧ t.eout = s.eout ∧ t.inputs = s.inputs ∧
      (v = [] → pad ≠ 0 →
        t.dec.phase = .fault ∧ t.dec.cause = .padInvalid ∧ t.dout = s.dout) ∧
      (v ≠ [] ∨ pad = 0 → ∀ d out,
        (stepBits ((v.flatMap byteBits).take (8 * v.length - pad.toNat))
            { u.dec with root := root, cur := root, dstate := .atRoot } = .raised d out →
          t.dec.phase = .fault ∧ t.dec.cause = .treeInvalid ∧ t.dout = s.dout ++ out) ∧
        (stepBits ((v.flatMap byteBits).take (8 * v.length - pad.toNat))
            { u.dec with root := root, cur := root, dstate := .atRoot } = .ran d out →
          t.dout = s.dout ++ out ∧
          (d.dstate = .atRoot → t.dec.phase = .done) ∧
          (d.dstate = .descending → t.dec.phase = .fault ∧ t.dec.cause = .truncated)))

/-- R195: round trip. A tree held in the node memory with any numbering, its code table in ENC, and
any sequence of its symbols: what ENC emits, given to DEC with ENC's pad count, comes out as that
sequence. For the empty sequence any tables will do. (That the leaves carry different symbols follows
from the code table giving each leaf its own path.) -/
def Obligations.RoundTripOfLoadedTables : Prop :=
  ∀ (s : State) (root : NodeIdx) (x : List Symbol), s.Inv → s.enc.phase = .load →
    s.dec.phase = .load →
    (x = [] ∨ ∃ tr : HostTree, tr.tabled s.enc ∧ tr.heldAt s.dec root ∧
      ∀ y ∈ x, y ∈ tr.symbols) →
    ∃ u t v,
      s.does (writes (x.map .encSym ++ [.encFlush])) = .next u ∧ u.enc.phase = .done ∧
      u.eout = s.eout ++ v ∧
      u.does (writes ([.decStart root u.enc.pad] ++ v.map .decByte ++ [.decEnd])) = .next t ∧
      t.dec.phase = .done ∧ t.dout = s.dout ++ x

/-- R190 to R192, R195, R255: the same from the host's driving sequences, started in any state: the
code table and the tree are loaded by commands, the nodes numbered in preorder from 0 (R192), nothing
loaded for the empty tree. R190 gives the table loads no order and R255 calls the order of the node
loads free (log entry 14): the claim holds for every order of either, as every permutation of the
lists that the model writes down. -/
def Obligations.RoundTripOfTheHostsCalls : Prop :=
  ∀ (s : State) (tr : HostTree) (table : List (Symbol × Bits)) (nodes : List Instr)
    (x : List Symbol), table.Perm tr.codes → nodes.Perm tr.loads → tr.symbols.Nodup →
    (∀ y ∈ x, y ∈ tr.symbols) →
    ∃ u t v,
      s.does (writes (encodeCall table x)) = .next u ∧ u.enc.phase = .done ∧
      u.eout = s.eout ++ v ∧
      u.does (writes (decodeCall nodes u.enc.pad v)) = .next t ∧
      t.dec.phase = .done ∧ t.dout = s.dout ++ x

/-- R202: a payload cut by its last byte, decoded with the same tree and pad count: when the remaining
data bits end at a code boundary the run ends in DONE with a proper prefix of the original output,
otherwise in FAULT with a cause that the host reports as a corrupt container. -/
def Obligations.CutPayloadFaultsUnlessAtACodeBoundary : Prop :=
  ∀ (s u : State) (root : NodeIdx) (x : List Symbol) (v : List Byte) (tr : HostTree), s.Inv →
    s.enc.phase = .load → s.dec.phase = .load → tr.tabled s.enc → tr.heldAt s.dec root →
    (∀ y ∈ x, y ∈ tr.symbols) →
    s.does (writes (x.map .encSym ++ [.encFlush])) = .next u → u.eout = s.eout ++ v → v ≠ [] →
    ∃ t,
      u.does (writes ([.decStart root u.enc.pad] ++ v.dropLast.map .decByte ++ [.decEnd])) =
        .next t ∧
      (∀ n, ((x.take n).flatMap s.enc.code).length + u.enc.pad.toNat = 8 * (v.length - 1) →
        t.dec.phase = .done ∧ t.dout = s.dout ++ x.take n ∧ (x.take n).length < x.length) ∧
      ((¬ ∃ n, ((x.take n).flatMap s.enc.code).length + u.enc.pad.toNat = 8 * (v.length - 1)) →
        t.dec.phase = .fault ∧
          (t.dec.cause = .truncated ∨ t.dec.cause = .padInvalid ∨ t.dec.cause = .treeInvalid))
end

