-- ==== Sys2Proof/Laws/State.lean ====
section
/-! SUPPORT. One lemma per field per update: what each named update of the state leaves in each
field. All hold by unfolding, and simp uses them so that no proof unfolds an update. -/

namespace Sys2Proof.Machine

/-! ### A step of ENC -/

@[simp] theorem State.afterEnc_enc (s : State) (f : Effect Enc) : (s.afterEnc f).enc = f.unit := rfl
@[simp] theorem State.afterEnc_dec (s : State) (f : Effect Enc) : (s.afterEnc f).dec = s.dec := rfl
@[simp] theorem State.afterEnc_eout (s : State) (f : Effect Enc) : (s.afterEnc f).eout = s.eout ++ f.out := rfl
@[simp] theorem State.afterEnc_dout (s : State) (f : Effect Enc) : (s.afterEnc f).dout = s.dout := rfl
@[simp] theorem State.afterEnc_inputs (s : State) (f : Effect Enc) : (s.afterEnc f).inputs = s.inputs := rfl

/-! ### A step of DEC -/

@[simp] theorem State.afterDec_enc (s : State) (f : Effect Dec) : (s.afterDec f).enc = s.enc := rfl
@[simp] theorem State.afterDec_dec (s : State) (f : Effect Dec) : (s.afterDec f).dec = f.unit := rfl
@[simp] theorem State.afterDec_eout (s : State) (f : Effect Dec) : (s.afterDec f).eout = s.eout := rfl
@[simp] theorem State.afterDec_dout (s : State) (f : Effect Dec) : (s.afterDec f).dout = s.dout ++ f.out := rfl
@[simp] theorem State.afterDec_inputs (s : State) (f : Effect Dec) : (s.afterDec f).inputs = s.inputs := rfl

/-! ### `ENC_INIT` -/

@[simp] theorem State.initEnc_enc (s : State) : (s.initEnc).enc = Enc.reset := rfl
@[simp] theorem State.initEnc_dec (s : State) : (s.initEnc).dec = s.dec := rfl
@[simp] theorem State.initEnc_eout (s : State) : (s.initEnc).eout = s.eout := rfl
@[simp] theorem State.initEnc_dout (s : State) : (s.initEnc).dout = s.dout := rfl
@[simp] theorem State.initEnc_inputs (s : State) : (s.initEnc).inputs = s.inputs := rfl

/-! ### `DEC_INIT` -/

@[simp] theorem State.initDec_enc (s : State) : (s.initDec).enc = s.enc := rfl
@[simp] theorem State.initDec_dec (s : State) : (s.initDec).dec = Dec.reset := rfl
@[simp] theorem State.initDec_eout (s : State) : (s.initDec).eout = s.eout := rfl
@[simp] theorem State.initDec_dout (s : State) : (s.initDec).dout = s.dout := rfl
@[simp] theorem State.initDec_inputs (s : State) : (s.initDec).inputs = s.inputs := rfl

/-! ### What the host does next -/

@[simp] theorem State.given_enc (s : State) (todo : List Input) : (s.given todo).enc = s.enc := rfl
@[simp] theorem State.given_dec (s : State) (todo : List Input) : (s.given todo).dec = s.dec := rfl
@[simp] theorem State.given_eout (s : State) (todo : List Input) : (s.given todo).eout = s.eout := rfl
@[simp] theorem State.given_dout (s : State) (todo : List Input) : (s.given todo).dout = s.dout := rfl
@[simp] theorem State.given_inputs (s : State) (todo : List Input) : (s.given todo).inputs = todo ++ s.inputs := rfl

/-! ### Reset -/

@[simp] theorem resetUnits_enc (c d : Option (Word × Nat)) (s : State) : (resetUnits c d s).enc = Enc.reset := rfl
@[simp] theorem resetUnits_dec (c d : Option (Word × Nat)) (s : State) : (resetUnits c d s).dec = Dec.reset := rfl
@[simp] theorem resetUnits_eout (c d : Option (Word × Nat)) (s : State) : (resetUnits c d s).eout = s.eout ++ handedBefore .enc c s := rfl
@[simp] theorem resetUnits_dout (c d : Option (Word × Nat)) (s : State) : (resetUnits c d s).dout = s.dout ++ handedBefore .dec d s := rfl
@[simp] theorem resetUnits_inputs (c d : Option (Word × Nat)) (s : State) : (resetUnits c d s).inputs = s.inputs := rfl

/-! ### A code-table write -/

@[simp] theorem Enc.setCode_phase (e : Enc) (sym : Symbol) (c : Bits) : (e.setCode sym c).phase = e.phase := rfl
@[simp] theorem Enc.setCode_cause (e : Enc) (sym : Symbol) (c : Bits) : (e.setCode sym c).cause = e.cause := rfl
@[simp] theorem Enc.setCode_ct (e : Enc) (sym : Symbol) (c : Bits) : (e.setCode sym c).ct = Memory.write [] e.ct sym.toNat c := rfl
@[simp] theorem Enc.setCode_acc (e : Enc) (sym : Symbol) (c : Bits) : (e.setCode sym c).acc = e.acc := rfl
@[simp] theorem Enc.setCode_nb (e : Enc) (sym : Symbol) (c : Bits) : (e.setCode sym c).nb = e.nb := rfl
@[simp] theorem Enc.setCode_pad (e : Enc) (sym : Symbol) (c : Bits) : (e.setCode sym c).pad = e.pad := rfl

/-! ### A node-memory write -/

@[simp] theorem Dec.setNode_phase (d : Dec) (idx : NodeIdx) (n : NodeEntry) : (d.setNode idx n).phase = d.phase := rfl
@[simp] theorem Dec.setNode_cause (d : Dec) (idx : NodeIdx) (n : NodeEntry) : (d.setNode idx n).cause = d.cause := rfl
@[simp] theorem Dec.setNode_nm (d : Dec) (idx : NodeIdx) (n : NodeEntry) : (d.setNode idx n).nm = Memory.write .invalid d.nm idx.toNat n := rfl
@[simp] theorem Dec.setNode_root (d : Dec) (idx : NodeIdx) (n : NodeEntry) : (d.setNode idx n).root = d.root := rfl
@[simp] theorem Dec.setNode_padr (d : Dec) (idx : NodeIdx) (n : NodeEntry) : (d.setNode idx n).padr = d.padr := rfl
@[simp] theorem Dec.setNode_cur (d : Dec) (idx : NodeIdx) (n : NodeEntry) : (d.setNode idx n).cur = d.cur := rfl
@[simp] theorem Dec.setNode_dstate (d : Dec) (idx : NodeIdx) (n : NodeEntry) : (d.setNode idx n).dstate = d.dstate := rfl
@[simp] theorem Dec.setNode_hold (d : Dec) (idx : NodeIdx) (n : NodeEntry) : (d.setNode idx n).hold = d.hold := rfl
@[simp] theorem Dec.setNode_holdv (d : Dec) (idx : NodeIdx) (n : NodeEntry) : (d.setNode idx n).holdv = d.holdv := rfl

/-! ### Effects and faults -/

@[simp] theorem Effect.unit_ran {σ : Type} (u : σ) (o : List Byte) : (Effect.ran u o).unit = u := rfl
@[simp] theorem Effect.out_ran {σ : Type} (u : σ) (o : List Byte) : (Effect.ran u o).out = o := rfl
@[simp] theorem Effect.after_ran {σ : Type} (o o' : List Byte) (u : σ) :
    (Effect.ran u o').after o = .ran u (o ++ o') := rfl
@[simp] theorem Effect.unit_raised {σ : Type} (u : σ) (o : List Byte) : (Effect.raised u o).unit = u := rfl
@[simp] theorem Effect.out_raised {σ : Type} (u : σ) (o : List Byte) : (Effect.raised u o).out = o := rfl
@[simp] theorem Effect.after_raised {σ : Type} (o o' : List Byte) (u : σ) :
    (Effect.raised u o').after o = .raised u (o ++ o') := rfl
@[simp] theorem Effect.andThen_ran {σ : Type} (u : σ) (o : List Byte) (g : σ → Effect σ) :
    (Effect.ran u o).andThen g = (g u).after o := rfl
@[simp] theorem Effect.andThen_raised {σ : Type} (u : σ) (o : List Byte) (g : σ → Effect σ) :
    (Effect.raised u o).andThen g = .raised u o := rfl
@[simp] theorem Effect.unit_after {σ : Type} (o : List Byte) (f : Effect σ) :
    (f.after o).unit = f.unit := by cases f <;> rfl
@[simp] theorem Effect.out_after {σ : Type} (o : List Byte) (f : Effect σ) :
    (f.after o).out = o ++ f.out := by cases f <;> rfl
@[simp] theorem Effect.after_nil {σ : Type} (f : Effect σ) : f.after [] = f := by cases f <;> rfl
theorem Effect.after_after {σ : Type} (o o' : List Byte) (f : Effect σ) :
    (f.after o').after o = f.after (o ++ o') := by cases f <;> simp
theorem Effect.after_andThen {σ : Type} (o : List Byte) (f : Effect σ) (g : σ → Effect σ) :
    (f.after o).andThen g = (f.andThen g).after o := by cases f <;> simp [Effect.after_after]
theorem Effect.andThen_assoc {σ : Type} (f : Effect σ) (g h : σ → Effect σ) :
    (f.andThen g).andThen h = f.andThen fun u => (g u).andThen h := by
  cases f <;> simp [Effect.after_andThen]
@[simp] theorem Enc.raise_unit (c : Cause) (e : Enc) :
    (e.raise c).unit = { e with phase := .fault, cause := c } := rfl
@[simp] theorem Enc.raise_out (c : Cause) (e : Enc) : (e.raise c).out = [] := rfl
@[simp] theorem Dec.raise_unit (c : Cause) (d : Dec) :
    (d.raise c).unit = { d with phase := .fault, cause := c } := rfl
@[simp] theorem Dec.raise_out (c : Cause) (d : Dec) : (d.raise c).out = [] := rfl

end Sys2Proof.Machine
end

