-- ==== Sys2Proof/Laws/Memory.lean ====
section
/-! SUPPORT. The laws of the two indexed memories: a read after a write, that writes keep the
canonical form, and that a canonical memory is determined by what it reads as. -/

namespace Sys2Proof.Machine

variable {α : Type}

@[simp] theorem Memory.read_nil (blank : α) (k : Nat) : Memory.read blank [] k = blank := rfl

theorem Memory.read_erase_other (blank : α) (m : Memory α) {k j : Nat} (h : j ≠ k) :
    Memory.read blank (m.erase k) j = Memory.read blank m j := by
  induction m with
  | nil => rfl
  | cons c rest ih =>
    simp only [Memory.erase] at ih
    by_cases hc : c.1 = k
    · simp [Memory.erase, hc, ih, Memory.read, Ne.symm h]
    · simp [Memory.erase, hc, Memory.read, ih]

theorem Memory.read_erase_same (blank : α) (m : Memory α) (k : Nat) :
    Memory.read blank (m.erase k) k = blank := by
  induction m with
  | nil => rfl
  | cons c rest ih =>
    simp only [Memory.erase] at ih
    by_cases hc : c.1 = k <;> simp [Memory.erase, hc, ih, Memory.read]

theorem Memory.read_insert_same (blank : α) (m : Memory α) (k : Nat) (v : α)
    (h : ∀ c ∈ m, c.1 ≠ k) : Memory.read blank (m.insert k v) k = v := by
  induction m with
  | nil => simp [Memory.insert, Memory.read]
  | cons c rest ih =>
    have hc : c.1 ≠ k := h c (by simp)
    have hr : ∀ c ∈ rest, c.1 ≠ k := fun c hc => h c (by simp [hc])
    by_cases hlt : k < c.1 <;> simp [Memory.insert, hlt, Memory.read, hc, ih hr]

theorem Memory.read_insert_other (blank : α) (m : Memory α) {k j : Nat} (v : α) (h : j ≠ k) :
    Memory.read blank (m.insert k v) j = Memory.read blank m j := by
  induction m with
  | nil => simp [Memory.insert, Memory.read, Ne.symm h]
  | cons c rest ih =>
    by_cases hlt : k < c.1 <;> simp [Memory.insert, hlt, Memory.read, Ne.symm h, ih]

/-- A read after a write: the written value at the written index, the old one elsewhere. -/
theorem Memory.read_write [DecidableEq α] (blank : α) (m : Memory α) (k j : Nat) (v : α) :
    Memory.read blank (m.write blank k v) j = if j = k then v else Memory.read blank m j := by
  by_cases hj : j = k
  · subst hj
    by_cases hv : v = blank
    · simp [Memory.write, hv, Memory.read_erase_same]
    · have hne : ∀ c ∈ m.erase j, c.1 ≠ j := by simp [Memory.erase]
      simp [Memory.write, hv, Memory.read_insert_same _ _ _ _ hne]
  · by_cases hv : v = blank
    · simp [Memory.write, hv, hj, Memory.read_erase_other _ _ hj]
    · simp [Memory.write, hv, hj, Memory.read_insert_other _ _ _ hj, Memory.read_erase_other _ _ hj]

theorem Memory.wf_iff [DecidableEq α] (size : Nat) (blank : α) (m : Memory α) :
    Memory.wf size blank m = true ↔
      m.Pairwise (fun a b => a.1 < b.1) ∧ ∀ c ∈ m, c.1 < size ∧ c.2 ≠ blank := by
  simp [Memory.wf]

@[simp] theorem Memory.wf_nil [DecidableEq α] (size : Nat) (blank : α) :
    Memory.wf size blank ([] : Memory α) = true := by simp [Memory.wf]

theorem Memory.mem_insert {m : Memory α} {k : Nat} {v : α} {c : Nat × α} :
    c ∈ m.insert k v ↔ c = (k, v) ∨ c ∈ m := by
  induction m with
  | nil => simp [Memory.insert]
  | cons d rest ih =>
    by_cases hlt : k < d.1
    · simp [Memory.insert, hlt]
    · simp [Memory.insert, hlt, ih]; tauto

theorem Memory.insert_rising {m : Memory α} (k : Nat) (v : α)
    (hm : m.Pairwise fun a b => a.1 < b.1) (hk : ∀ c ∈ m, c.1 ≠ k) :
    (m.insert k v).Pairwise fun a b => a.1 < b.1 := by
  induction m with
  | nil => simp [Memory.insert]
  | cons d rest ih =>
    obtain ⟨hd, hrest⟩ := List.pairwise_cons.1 hm
    by_cases hlt : k < d.1
    · simp only [Memory.insert, hlt, if_true, List.pairwise_cons]
      refine ⟨?_, hd, hrest⟩
      intro c hc
      rcases List.mem_cons.1 hc with rfl | hc
      · exact hlt
      · exact Nat.lt_trans hlt (hd c hc)
    · have hne : d.1 ≠ k := hk d (by simp)
      simp only [Memory.insert, hlt, if_false, List.pairwise_cons]
      refine ⟨?_, ih hrest fun c hc => hk c (by simp [hc])⟩
      intro c hc
      rcases Memory.mem_insert.1 hc with rfl | hc
      · exact Nat.lt_of_le_of_ne (Nat.le_of_not_lt hlt) hne
      · exact hd c hc

/-- A write inside the memory keeps the canonical form. -/
theorem Memory.write_wf [DecidableEq α] {size : Nat} {blank : α} {m : Memory α}
    (h : Memory.wf size blank m = true) {k : Nat} (hk : k < size) (v : α) :
    Memory.wf size blank (m.write blank k v) = true := by
  rw [Memory.wf_iff] at h ⊢
  obtain ⟨hp, hall⟩ := h
  have hp' : (m.erase k).Pairwise fun a b => a.1 < b.1 := hp.filter _
  have hall' : ∀ c ∈ m.erase k, c.1 < size ∧ c.2 ≠ blank := fun c hc =>
    hall c (List.mem_filter.1 hc).1
  by_cases hv : v = blank
  · rw [Memory.write, if_pos hv]
    exact ⟨hp', hall'⟩
  · simp only [Memory.write, hv, if_false]
    refine ⟨Memory.insert_rising k v hp' (by simp [Memory.erase]), ?_⟩
    intro c hc
    rcases Memory.mem_insert.1 hc with rfl | hc
    · exact ⟨hk, hv⟩
    · exact hall' c hc

/-- A memory with rising indices reads as `blank` below its first index. -/
theorem Memory.read_below (blank : α) {m : Memory α} {k : Nat} (h : ∀ c ∈ m, k < c.1) :
    Memory.read blank m k = blank := by
  induction m with
  | nil => rfl
  | cons c rest ih =>
    have hc : c.1 ≠ k := Nat.ne_of_gt (h c (by simp))
    simp [Memory.read, hc, ih fun d hd => h d (by simp [hd])]

/-- Two canonical memories that read the same at every index are equal. -/
theorem Memory.ext_of_read [DecidableEq α] {size : Nat} {blank : α} {m n : Memory α}
    (hm : Memory.wf size blank m = true) (hn : Memory.wf size blank n = true)
    (h : ∀ k, Memory.read blank m k = Memory.read blank n k) : m = n := by
  rw [Memory.wf_iff] at hm hn
  obtain ⟨hmp, hma⟩ := hm
  obtain ⟨hnp, hna⟩ := hn
  induction m generalizing n with
  | nil =>
    cases n with
    | nil => rfl
    | cons c rest =>
      have := h c.1
      simp only [Memory.read, if_true] at this
      exact absurd this.symm (hna c (by simp)).2
  | cons c rest ih =>
    obtain ⟨hc, hmp'⟩ := List.pairwise_cons.1 hmp
    cases n with
    | nil =>
      have := h c.1
      simp only [Memory.read, if_true] at this
      exact absurd this (hma c (by simp)).2
    | cons d rest' =>
      obtain ⟨hd, hnp'⟩ := List.pairwise_cons.1 hnp
      have hlt : ¬ c.1 < d.1 := by
        intro hlt
        have h1 := h c.1
        rw [Memory.read_below (m := d :: rest') blank (k := c.1)] at h1
        · simp only [Memory.read, if_true] at h1
          exact (hma c (by simp)).2 h1
        · intro x hx
          rcases List.mem_cons.1 hx with rfl | hx
          · exact hlt
          · exact Nat.lt_trans hlt (hd x hx)
      have hgt : ¬ d.1 < c.1 := by
        intro hgt
        have h1 := h d.1
        rw [Memory.read_below (m := c :: rest) blank (k := d.1)] at h1
        · simp only [Memory.read, if_true] at h1
          exact (hna d (by simp)).2 h1.symm
        · intro x hx
          rcases List.mem_cons.1 hx with rfl | hx
          · exact hgt
          · exact Nat.lt_trans hgt (hc x hx)
      have heq : c.1 = d.1 := by omega
      have hval : c.2 = d.2 := by
        have h1 := h c.1
        simpa [Memory.read, heq] using h1
      have hcd : c = d := Prod.ext heq hval
      subst hcd
      refine congrArg _ (ih ?_ hmp' (fun x hx => hma x (by simp [hx])) hnp'
        fun x hx => hna x (by simp [hx]))
      intro k
      by_cases hk : c.1 = k
      · rw [Memory.read_below blank (m := rest) (by simpa [← hk] using hc),
          Memory.read_below blank (m := rest') (by simpa [← hk] using hd)]
      · simpa [Memory.read, hk] using h k

/-- Writing the same value a second time changes nothing, whatever the form of the memory. -/
theorem Memory.write_write_same [DecidableEq α] (blank : α) (m : Memory α) (k : Nat) (v : α) :
    (m.write blank k v).write blank k v = m.write blank k v := by
  have he : ∀ m : Memory α, (m.erase k).erase k = m.erase k := by
    intro m; simp [Memory.erase, List.filter_filter]
  have hi : ∀ m : Memory α, (∀ c ∈ m, c.1 ≠ k) → (m.insert k v).erase k = m := by
    intro m
    induction m with
    | nil => simp [Memory.insert, Memory.erase]
    | cons c rest ih =>
      intro h
      have hr : rest.filter (fun c => c.1 != k) = rest := by
        rw [List.filter_eq_self]; intro x hx; simpa using h x (by simp [hx])
      have hc := h c (by simp)
      have := ih (fun x hx => h x (by simp [hx]))
      simp only [Memory.erase] at this
      by_cases hlt : k < c.1
      · simp [Memory.insert, hlt, Memory.erase, hc, hr]
      · simp [Memory.insert, hlt, Memory.erase, hc, this]
  by_cases hv : v = blank
  · simp [Memory.write, hv, he]
  · simp only [Memory.write, hv, if_false]
    rw [hi _ (by simp [Memory.erase])]

/-! ### The two memories of the units -/

@[simp] theorem Enc.code_setCode (e : Enc) (sym sym' : Symbol) (c : Bits) :
    (e.setCode sym c).code sym' = if sym' = sym then c else e.code sym' := by
  simp [Enc.code, Memory.read_write, BitVec.toNat_inj]

@[simp] theorem Dec.node_setNode (d : Dec) (idx idx' : NodeIdx) (n : NodeEntry) :
    (d.setNode idx n).node idx' = if idx' = idx then n else d.node idx' := by
  simp [Dec.node, Memory.read_write, BitVec.toNat_inj]

@[simp] theorem Enc.code_reset (sym : Symbol) : Enc.reset.code sym = [] := rfl

@[simp] theorem Dec.node_reset (idx : NodeIdx) : Dec.reset.node idx = .invalid := rfl

theorem Enc.setCode_wf {e : Enc} (h : Memory.wf Config.nSym ([] : Bits) e.ct = true)
    (sym : Symbol) (c : Bits) : Memory.wf Config.nSym ([] : Bits) (e.setCode sym c).ct = true :=
  Memory.write_wf h sym.isLt c

theorem Dec.setNode_wf {d : Dec} (h : Memory.wf Config.nNode NodeEntry.invalid d.nm = true)
    (idx : NodeIdx) (n : NodeEntry) :
    Memory.wf Config.nNode NodeEntry.invalid (d.setNode idx n).nm = true :=
  Memory.write_wf h idx.isLt n

end Sys2Proof.Machine
end

