-- ==== Sys2Proof/Laws/Packing.lean ====
section
/-! SUPPORT. The laws of the bit packer: `push_bit` and `push_bits` keep the stream of bits, and
change nothing but ACC and NB. -/

namespace Sys2Proof.Machine

@[simp] theorem byteBits_length (v : Byte) : (byteBits v).length = 8 := by simp [byteBits]

@[simp] theorem appendedBits_length (nm1 : BitVec 4) (code : BitVec 16) :
    (appendedBits nm1 code).length = appendCount nm1 := by simp [appendedBits]

theorem byteBits_eq (v : Byte) :
    byteBits v = [v.getLsbD 7, v.getLsbD 6, v.getLsbD 5, v.getLsbD 4, v.getLsbD 3, v.getLsbD 2,
      v.getLsbD 1, v.getLsbD 0] := rfl

theorem Enc.pending_length (e : Enc) : e.pending.length = e.nb.toNat := by
  have := e.nb.isLt
  simp [Enc.pending]
  omega

/-- The bits of ACC below the pending ones are zero (R30). -/
def Enc.Free (e : Enc) : Prop := ∀ j, j < 8 - e.nb.toNat → e.acc.getLsbD j = false

/-- With no bit pending, ACC is zero (R30). -/
theorem Enc.Free.acc_zero {e : Enc} (h : e.Free) (hn : e.nb = 0) : e.acc = 0 := by
  apply BitVec.eq_of_getLsbD_eq
  intro i hi
  simpa using h i (by simpa [hn] using hi)

/-- The eight values of NB. -/
theorem nb_cases (n : BitVec 3) :
    n = 0 ∨ n = 1 ∨ n = 2 ∨ n = 3 ∨ n = 4 ∨ n = 5 ∨ n = 6 ∨ n = 7 := by
  revert n; decide

/-- `push_bit` changes ACC and NB only. -/
theorem pushBit_frame (b : Bool) (e : Enc) :
    (pushBit b e).1 = { e with acc := (pushBit b e).1.acc, nb := (pushBit b e).1.nb } := by
  unfold pushBit
  dsimp only
  split <;> rfl

/-- What one bit put into the position `7 - n` makes of the bit `j` of a byte. -/
theorem getLsbD_placed (acc : Byte) (b : Bool) (n j : Nat) (hn : n < 8) :
    (acc ||| ((BitVec.ofBool b).setWidth 8 <<< (7 - n))).getLsbD j =
      (acc.getLsbD j || (b && decide (j = 7 - n))) := by
  by_cases hj : j < 8
  · interval_cases n <;> interval_cases j <;> cases b <;> simp
  · have : j ≠ 7 - n := by omega
    simp [BitVec.getLsbD_of_ge _ _ (Nat.le_of_not_lt hj), this]

/-- `push_bit` keeps the stream of bits and the zeros below the pending bits (R30, R111). -/
theorem pushBit_stream (b : Bool) {e : Enc} (h : e.Free) :
    (pushBit b e).2.flatMap byteBits ++ (pushBit b e).1.pending = e.pending ++ [b] ∧
      (pushBit b e).1.Free := by
  have hp := fun j => getLsbD_placed e.acc b e.nb.toNat j e.nb.isLt
  obtain ⟨phase, cause, ct, acc, nb, pad⟩ := e
  simp only [Enc.Free] at h hp ⊢
  unfold pushBit
  dsimp only
  split
  · next h7 =>
    subst h7
    refine ⟨?_, fun j _ => by simp⟩
    simp only [Enc.pending, byteBits_eq, List.flatMap_cons, List.flatMap_nil, hp]
    simp (disch := decide) only [h]
    simp
  · rcases nb_cases nb with rfl | rfl | rfl | rfl | rfl | rfl | rfl | rfl <;>
      first
      | contradiction
      | refine ⟨?_, ?_⟩
        · simp only [Enc.pending, byteBits_eq, hp]
          simp (disch := decide) only [h]
          simp
        · intro j hj
          simp at hj
          rw [hp, h j (by simp; omega)]
          simp
          omega

/-- `push_bits` changes ACC and NB only. -/
theorem pushBits_frame (bs : Bits) (e : Enc) :
    (pushBits bs e).1 = { e with acc := (pushBits bs e).1.acc, nb := (pushBits bs e).1.nb } := by
  induction bs generalizing e with
  | nil => rfl
  | cons b bs ih =>
    have h1 := pushBit_frame b e
    have h2 := ih (pushBit b e).1
    simp only [pushBits]
    rw [h2, h1]

/-- `push_bits` keeps the stream of bits: the bits of the emitted bytes and then the bits pending
after are the bits pending before and then the bits pushed; and it keeps the zeros below
(R30, R93, R111). -/
theorem pushBits_stream (bs : Bits) {e : Enc} (h : e.Free) :
    (pushBits bs e).2.flatMap byteBits ++ (pushBits bs e).1.pending = e.pending ++ bs ∧
      (pushBits bs e).1.Free := by
  induction bs generalizing e with
  | nil => simpa [pushBits] using h
  | cons b bs ih =>
    obtain ⟨h1, hf⟩ := pushBit_stream b h
    obtain ⟨h2, hf'⟩ := ih hf
    refine ⟨?_, by simpa [pushBits] using hf'⟩
    simp only [pushBits, List.flatMap_append, List.append_assoc, h2]
    rw [← List.append_assoc, h1]
    simp

/-- The bytes of a list of bytes as bits. -/
theorem flatMap_byteBits_length (o : List Byte) : (o.flatMap byteBits).length = 8 * o.length := by
  induction o with
  | nil => rfl
  | cons v o ih => simp [ih]; omega

/-- How many bytes `push_bits` emits and how many bits stay pending (R115). -/
theorem pushBits_count (bs : Bits) {e : Enc} (h : e.Free) :
    (pushBits bs e).2.length = (e.nb.toNat + bs.length) / 8 ∧
      (pushBits bs e).1.nb.toNat = (e.nb.toNat + bs.length) % 8 := by
  have hl := congrArg List.length (pushBits_stream bs h).1
  simp only [List.length_append, flatMap_byteBits_length, Enc.pending_length] at hl
  have := (pushBits bs e).1.nb.isLt
  omega

end Sys2Proof.Machine
end

