-- ==== Sys2Proof/Laws/Walking.lean ====
section
/-! SUPPORT. The laws of the tree walk: what one `step_bit` can do, and that a walk over several
stretches of bits is the walk over their concatenation. -/

namespace Sys2Proof.Machine

/-- Everything one `step_bit` can do (R141): it faults and moves nothing, it reaches a leaf, or it
moves to an internal node. -/
theorem stepBit_cases (b : Bool) (d : Dec) :
    (stepBit b d = d.raise .treeInvalid ∧
      ∀ l r, d.node d.cur = .int l r → d.node (childOf l r b) = .invalid) ∨
    (∃ l r sym, d.node d.cur = .int l r ∧ d.node (childOf l r b) = .leaf sym ∧
      stepBit b d = .ran { d with cur := d.root, dstate := .atRoot } [sym]) ∨
    (∃ l r l' r', d.node d.cur = .int l r ∧ d.node (childOf l r b) = .int l' r' ∧
      stepBit b d = .ran { d with cur := childOf l r b, dstate := .descending } []) := by
  unfold stepBit
  cases hc : d.node d.cur with
  | invalid => simp
  | leaf sym => simp
  | int l r => cases hn : d.node (childOf l r b) <;> simp [hn]

theorem stepBits_append (bs cs : Bits) (d : Dec) :
    stepBits (bs ++ cs) d = (stepBits bs d).andThen (stepBits cs) := by
  induction bs generalizing d with
  | nil => simp [stepBits]
  | cons b bs ih =>
    have : stepBits (bs ++ cs) = fun u => (stepBits bs u).andThen (stepBits cs) := funext ih
    simp [stepBits, Effect.andThen_assoc, this]

/-- A walk changes the position, the state of the decode state machine and, on a fault, the phase
and the cause; nothing else. -/
theorem stepBits_frame (bs : Bits) (d : Dec) :
    (stepBits bs d).unit =
      { d with cur := (stepBits bs d).unit.cur, dstate := (stepBits bs d).unit.dstate,
               phase := (stepBits bs d).unit.phase, cause := (stepBits bs d).unit.cause } := by
  induction bs generalizing d with
  | nil => rfl
  | cons b bs ih =>
    rcases stepBit_cases b d with ⟨h, -⟩ | ⟨l, r, sym, -, -, h⟩ | ⟨l, r, l', r', -, -, h⟩
    · simp [stepBits, h, Dec.raise]
    · simp only [stepBits, h, Effect.andThen_ran, Effect.unit_after]
      rw [ih]
    · simp only [stepBits, h, Effect.andThen_ran, Effect.unit_after]
      rw [ih]

/-- A walk ended by a fault has put the unit into FAULT with the cause TREE_INVALID; one that ran
has left phase and cause alone. -/
theorem stepBits_flags (bs : Bits) (d : Dec) :
    (∃ u o, stepBits bs d = .ran u o ∧ u.phase = d.phase ∧ u.cause = d.cause) ∨
    (∃ u o, stepBits bs d = .raised u o ∧ u.phase = .fault ∧ u.cause = .treeInvalid) := by
  induction bs generalizing d with
  | nil => exact .inl ⟨d, [], rfl, rfl, rfl⟩
  | cons b bs ih =>
    rcases stepBit_cases b d with ⟨h, -⟩ | ⟨l, r, sym, -, -, h⟩ | ⟨l, r, l', r', -, -, h⟩
    · exact .inr ⟨{ d with phase := .fault, cause := .treeInvalid }, [],
        by simp [stepBits, h, Dec.raise], rfl, rfl⟩
    · rcases ih { d with cur := d.root, dstate := .atRoot } with
        ⟨u, o, hu, hp, hc⟩ | ⟨u, o, hu, hp, hc⟩
      · exact .inl ⟨u, sym :: o, by simp [stepBits, h, hu], hp, hc⟩
      · exact .inr ⟨u, sym :: o, by simp [stepBits, h, hu], hp, hc⟩
    · rcases ih { d with cur := childOf l r b, dstate := .descending } with
        ⟨u, o, hu, hp, hc⟩ | ⟨u, o, hu, hp, hc⟩
      · exact .inl ⟨u, o, by simp [stepBits, h, hu], hp, hc⟩
      · exact .inr ⟨u, o, by simp [stepBits, h, hu], hp, hc⟩

/-- A walk that ran changed the position and the state of the decode state machine only. -/
theorem stepBits_ran_eq {bs : Bits} {d u : Dec} {o : List Byte} (h : stepBits bs d = .ran u o) :
    u = { d with cur := u.cur, dstate := u.dstate } := by
  have hf := stepBits_frame bs d
  rcases stepBits_flags bs d with ⟨u', o', h', hp, hc⟩ | ⟨u', o', h', -, -⟩
  · rw [h'] at h hf
    injection h with h
    subst h
    rw [Effect.unit_ran, hp, hc] at hf
    exact hf
  · rw [h'] at h
    exact absurd h (by simp)

/-- A walk ended by a fault changed, beside the flags, the position and the state of the decode
state machine only. -/
theorem stepBits_raised_eq {bs : Bits} {d u : Dec} {o : List Byte}
    (h : stepBits bs d = .raised u o) :
    u = { d with cur := u.cur, dstate := u.dstate, phase := .fault, cause := .treeInvalid } := by
  have hf := stepBits_frame bs d
  rcases stepBits_flags bs d with ⟨u', o', h', -, -⟩ | ⟨u', o', h', hp, hc⟩
  · rw [h'] at h
    exact absurd h (by simp)
  · rw [h'] at h hf
    injection h with h
    subst h
    rw [Effect.unit_raised, hp, hc] at hf
    exact hf

/-- A walk of `k` bits emits at most `k` symbols (R150). -/
theorem stepBits_out_length (bs : Bits) (d : Dec) : (stepBits bs d).out.length ≤ bs.length := by
  induction bs generalizing d with
  | nil => simp [stepBits]
  | cons b bs ih =>
    rcases stepBit_cases b d with ⟨h, -⟩ | ⟨l, r, sym, -, -, h⟩ | ⟨l, r, l', r', -, -, h⟩
    · simp [stepBits, h, Dec.raise]
    · have := ih { d with cur := d.root, dstate := .atRoot }
      simp [stepBits, h]; omega
    · have := ih { d with cur := childOf l r b, dstate := .descending }
      simp [stepBits, h]; omega

end Sys2Proof.Machine
end

