-- ==== Sys2Proof/Laws/Exec.lean ====
section
/-! SUPPORT. What a command, a word and an input can do, said once: the unit of the port is replaced,
bytes are appended to its stream, and everything else stays. -/

namespace Sys2Proof.Machine

theorem State.afterEnc_idle (s : State) : s.afterEnc (.ran s.enc []) = s := by
  simp [State.afterEnc]

theorem State.afterDec_idle (s : State) : s.afterDec (.ran s.dec []) = s := by
  simp [State.afterDec]

theorem encCommand_eq (a : Phase → Bool) (r : Enc → Effect Enc) (s : State) :
    encCommand a r s = .next (s.afterEnc
      (if s.enc.phase = .fault then .ran s.enc []
       else if a s.enc.phase then r s.enc else s.enc.raise .protocol)) := by
  unfold encCommand
  split
  · rw [State.afterEnc_idle]
  · split <;> rfl

theorem decCommand_eq (a : Phase → Bool) (r : Dec → Effect Dec) (s : State) :
    decCommand a r s = .next (s.afterDec
      (if s.dec.phase = .fault then .ran s.dec []
       else if a s.dec.phase then r s.dec else s.dec.raise .protocol)) := by
  unfold decCommand
  split
  · rw [State.afterDec_idle]
  · split <;> rfl

/-- What a command of ENC other than its INIT does is a function of the state of ENC. -/
theorem encCommand_effect (a : Phase → Bool) (r : Enc → Effect Enc) :
    ∃ F : Enc → Effect Enc, ∀ s, encCommand a r s = .next (s.afterEnc (F s.enc)) :=
  ⟨fun e => if e.phase = .fault then .ran e []
    else if a e.phase then r e else e.raise .protocol, encCommand_eq a r⟩

theorem initEnc_eq (s : State) : s.initEnc = s.afterEnc (.ran Enc.reset []) := by
  simp [State.initEnc, State.afterEnc]

/-- What a command of DEC other than its INIT does is a function of the state of DEC. -/
theorem decCommand_effect (a : Phase → Bool) (r : Dec → Effect Dec) :
    ∃ F : Dec → Effect Dec, ∀ s, decCommand a r s = .next (s.afterDec (F s.dec)) :=
  ⟨fun d => if d.phase = .fault then .ran d []
    else if a d.phase then r d else d.raise .protocol, decCommand_eq a r⟩

theorem initDec_eq (s : State) : s.initDec = s.afterDec (.ran Dec.reset []) := by
  simp [State.initDec, State.afterDec]

theorem illegalCommand_enc (s : State) :
    illegalCommand .enc s = .next (s.afterEnc
      (if s.enc.phase = .fault then .ran s.enc [] else s.enc.raise .illegalCmd)) := by
  unfold illegalCommand
  dsimp only
  split
  · rw [State.afterEnc_idle]
  · rfl

theorem illegalCommand_dec (s : State) :
    illegalCommand .dec s = .next (s.afterDec
      (if s.dec.phase = .fault then .ran s.dec [] else s.dec.raise .illegalCmd)) := by
  unfold illegalCommand
  dsimp only
  split
  · rw [State.afterDec_idle]
  · rfl

/-! ### Each command in the form of `encCommand` or `decCommand` -/

theorem exec_ctClr (sym : Symbol) (s : State) :
    exec (.ctClr sym) s = encCommand whileLoading (clearCode sym) s := rfl
theorem exec_ctApp (sym : Symbol) (nm1 : BitVec 4) (code : BitVec 16) (s : State) :
    exec (.ctApp sym nm1 code) s = encCommand whileLoading (appendCode sym nm1 code) s := rfl
theorem exec_encSym (sym : Symbol) (s : State) :
    exec (.encSym sym) s = encCommand untilFlushed (encodeSymbol sym) s := rfl
theorem exec_encFlush (s : State) : exec .encFlush s = encCommand untilFlushed flush s := rfl
theorem exec_nmLeaf (idx : NodeIdx) (sym : Symbol) (s : State) :
    exec (.nmLeaf idx sym) s = decCommand whileLoading (loadNode idx (.leaf sym)) s := rfl
theorem exec_nmInt (idx left right : NodeIdx) (s : State) :
    exec (.nmInt idx left right) s = decCommand whileLoading (loadNode idx (.int left right)) s :=
  rfl
theorem exec_decStart (root : NodeIdx) (pad : Pad) (s : State) :
    exec (.decStart root pad) s = decCommand whileLoading (startReading root pad) s := rfl
theorem exec_decByte (byte : Byte) (s : State) :
    exec (.decByte byte) s = decCommand whileRunning (takeByte byte) s := rfl
theorem exec_decEnd (s : State) : exec .decEnd s = decCommand whileRunning endReading s := rfl

/-- What a command of ENC does is a function of the state of ENC (R110). -/
theorem exec_enc {i : Instr} (h : i.port = .enc) :
    ∃ F : Enc → Effect Enc, ∀ s, exec i s = .next (s.afterEnc (F s.enc)) := by
  cases i with
  | encInit => exact ⟨fun _ => .ran Enc.reset [], fun s => congrArg _ (initEnc_eq s)⟩
  | ctClr sym => exact encCommand_effect whileLoading (clearCode sym)
  | ctApp sym nm1 code => exact encCommand_effect whileLoading (appendCode sym nm1 code)
  | encSym sym => exact encCommand_effect untilFlushed (encodeSymbol sym)
  | encFlush => exact encCommand_effect untilFlushed flush
  | decInit | nmLeaf | nmInt | decStart | decByte | decEnd => simp [Instr.port] at h

/-- What a command of DEC does is a function of the state of DEC (R140). -/
theorem exec_dec {i : Instr} (h : i.port = .dec) :
    ∃ F : Dec → Effect Dec, ∀ s, exec i s = .next (s.afterDec (F s.dec)) := by
  cases i with
  | decInit => exact ⟨fun _ => .ran Dec.reset [], fun s => congrArg _ (initDec_eq s)⟩
  | nmLeaf idx sym => exact decCommand_effect whileLoading (loadNode idx (.leaf sym))
  | nmInt idx left right =>
    exact decCommand_effect whileLoading (loadNode idx (.int left right))
  | decStart root pad => exact decCommand_effect whileLoading (startReading root pad)
  | decByte byte => exact decCommand_effect whileRunning (takeByte byte)
  | decEnd => exact decCommand_effect whileRunning endReading
  | encInit | ctClr | ctApp | encSym | encFlush => simp [Instr.port] at h

/-- A word decodes to a command of its own port (R81, R84). -/
theorem decode_port {p : Port} {w : Word} {i : Instr} (h : decode p w = some i) : i.port = p := by
  unfold decode at h
  cases hr : opcodeMap.find? (fun r => r.accepts p w) with
  | none => simp [hr] at h
  | some r =>
    have hmem := List.mem_of_find?_eq_some hr
    have hacc := List.find?_some hr
    simp only [OpcodeRow.accepts, Bool.and_eq_true, beq_iff_eq] at hacc
    simp only [hr, Option.map_some, Option.some.injEq] at h
    subst h
    rw [← hacc.1]
    simp only [opcodeMap, List.mem_cons, List.not_mem_nil, or_false] at hmem
    rcases hmem with rfl | rfl | rfl | rfl | rfl | rfl | rfl | rfl | rfl | rfl | rfl <;> rfl

/-- What a word on the ENC port does is a function of the state of ENC (R9, R110). -/
theorem acceptWord_enc (w : Word) :
    ∃ F : Enc → Effect Enc, ∀ s, acceptWord .enc w s = .next (s.afterEnc (F s.enc)) := by
  unfold acceptWord
  cases h : decode .enc w with
  | none => exact ⟨fun e => if e.phase = .fault then .ran e [] else e.raise .illegalCmd,
      illegalCommand_enc⟩
  | some i => exact exec_enc (decode_port h)

/-- What a word on the DEC port does is a function of the state of DEC (R9, R140). -/
theorem acceptWord_dec (w : Word) :
    ∃ F : Dec → Effect Dec, ∀ s, acceptWord .dec w s = .next (s.afterDec (F s.dec)) := by
  unfold acceptWord
  cases h : decode .dec w with
  | none => exact ⟨fun d => if d.phase = .fault then .ran d [] else d.raise .illegalCmd,
      illegalCommand_dec⟩
  | some i => exact exec_dec (decode_port h)

@[simp] theorem emittedAt_afterEnc (s : State) (f : Effect Enc) :
    emittedAt .enc s (s.afterEnc f) = f.out := by simp [emittedAt, State.stream]

@[simp] theorem emittedAt_afterDec (s : State) (f : Effect Dec) :
    emittedAt .dec s (s.afterDec f) = f.out := by simp [emittedAt, State.stream]

end Sys2Proof.Machine
end

