-- ==== Sys2Proof/Laws/HostTree.lean ====
section
/-! SUPPORT. The small laws of the host's trees: how many nodes, codes and loads a tree has, how long
its codes are, and that holding a tree is a fact about the node memory alone. -/

namespace Sys2Proof.Machine

@[simp] theorem HostTree.codes_empty : HostTree.empty.codes = [] := rfl
@[simp] theorem HostTree.symbols_empty : HostTree.empty.symbols = [] := rfl
@[simp] theorem HostTree.loads_empty : HostTree.empty.loads = [] := rfl
@[simp] theorem HostTree.heldAt_empty (d : Dec) (i : NodeIdx) : HostTree.empty.heldAt d i := trivial
@[simp] theorem HostTree.tabled_empty (e : Enc) : HostTree.empty.tabled e := fun _ h => nomatch h

theorem CodeTree.codes_length_pos (t : CodeTree) : 0 < t.codes.length := by
  induction t with
  | leaf => simp [codes]
  | node l r ihl ihr => simp [codes]; omega

/-- A tree of `L` leaves has `2L - 1` nodes (R192). -/
theorem CodeTree.size_add_one (t : CodeTree) : t.size + 1 = 2 * t.codes.length := by
  induction t with
  | leaf => rfl
  | node l r ihl ihr => simp [size, codes]; omega

/-- A code is shorter than the number of leaves. -/
theorem CodeTree.code_length_lt (t : CodeTree) : ∀ c ∈ t.codes, c.2.length < t.codes.length := by
  induction t with
  | leaf => simp [codes]
  | node l r ihl ihr =>
    have hl := l.codes_length_pos
    have hr := r.codes_length_pos
    intro c hc
    simp only [codes, List.mem_append, List.mem_map] at hc
    simp only [codes, List.length_append, List.length_map]
    rcases hc with ⟨d, hd, rfl⟩ | ⟨d, hd, rfl⟩
    · have := ihl d hd; simp only [List.length_cons]; omega
    · have := ihr d hd; simp only [List.length_cons]; omega

/-- One load for each node (R191). -/
theorem CodeTree.loads_length (t : CodeTree) (i : Nat) : (t.loads i).length = t.size := by
  induction t generalizing i with
  | leaf => rfl
  | node l r ihl ihr => simp [loads, size, ihl, ihr]; omega

theorem CodeTree.heldAt_of_nm {d d' : Dec} (hnm : d'.nm = d.nm) (t : CodeTree) (i : NodeIdx)
    (h : t.heldAt d i) : t.heldAt d' i := by
  have hnode : d'.node = d.node := by funext j; simp only [Dec.node, hnm]
  induction t generalizing i with
  | leaf => simpa only [heldAt, hnode] using h
  | node l r ihl ihr =>
    obtain ⟨a, b, hi, ha, hb⟩ := h
    exact ⟨a, b, hnode ▸ hi, ihl a ha, ihr b hb⟩

/-- Whether a decoder holds the tree is decided by its node memory. -/
theorem HostTree.heldAt_of_nm {d d' : Dec} (hnm : d'.nm = d.nm) (tr : HostTree) (i : NodeIdx)
    (h : tr.heldAt d i) : tr.heldAt d' i := by
  have hnode : d'.node = d.node := by funext j; simp only [Dec.node, hnm]
  cases tr with
  | empty => trivial
  | single => simpa only [heldAt, hnode] using h
  | full l r => exact CodeTree.heldAt_of_nm hnm _ i h

/-- The code that a table of the tree gives one of its symbols stands in the tree. -/
theorem HostTree.tabled_mem {tr : HostTree} {e : Enc} (ht : tr.tabled e) {y : Symbol}
    (hy : y ∈ tr.symbols) : (y, e.code y) ∈ tr.codes := by
  obtain ⟨c, hc, rfl⟩ := List.mem_map.1 hy
  rw [ht c hc]; exact hc

end Sys2Proof.Machine
end

