-- ==== Sys2Proof/Laws/PerInstr.lean ====
section
/-! SUPPORT. Statements about every instruction as syntax, one lemma per constructor. -/

namespace Sys2Proof.Laws.PortBit

open Sys2Proof

/-- The opcode in a command's word tells the port that takes the command (spec/30_encoding.md R81). -/
def Statement (i : Instr) : Prop := portOfWord (encode i) = i.port

theorem encInit : Statement .encInit := rfl
theorem ctClr (sym : Symbol) : Statement (.ctClr sym) := by
  simp only [Statement, portOfWord, encode, BitVec.getLsbD_append]; rfl
theorem ctApp (sym : Symbol) (nm1 : BitVec 4) (code : BitVec 16) :
    Statement (.ctApp sym nm1 code) := by
  simp only [Statement, portOfWord, encode, BitVec.getLsbD_append]; rfl
theorem encSym (sym : Symbol) : Statement (.encSym sym) := by
  simp only [Statement, portOfWord, encode, BitVec.getLsbD_append]; rfl
theorem encFlush : Statement .encFlush := rfl
theorem decInit : Statement .decInit := rfl
theorem nmLeaf (idx : NodeIdx) (sym : Symbol) : Statement (.nmLeaf idx sym) := by
  simp only [Statement, portOfWord, encode, BitVec.getLsbD_append]; rfl
theorem nmInt (idx left right : NodeIdx) : Statement (.nmInt idx left right) := by
  simp only [Statement, portOfWord, encode, BitVec.getLsbD_append]; rfl
theorem decStart (root : NodeIdx) (pad : Pad) : Statement (.decStart root pad) := by
  simp only [Statement, portOfWord, encode, BitVec.getLsbD_append]; rfl
theorem decByte (byte : Byte) : Statement (.decByte byte) := by
  simp only [Statement, portOfWord, encode, BitVec.getLsbD_append]; rfl
theorem decEnd : Statement .decEnd := rfl

end Sys2Proof.Laws.PortBit
end

