-- ==== Sys2Proof/Laws/Runs.lean ====
section
/-! SUPPORT. The laws of runs: an input neither reads nor writes the inputs that come after it, and a
run of two stretches is one run after the other. -/

namespace Sys2Proof.Machine

@[simp] theorem step_given_cons (s : State) (x : Input) (todo : List Input) :
    step (s.given (x :: todo)) = acceptInput x { s with inputs := todo ++ s.inputs } := rfl

theorem afterEnc_inputs_comm (s : State) (f : Effect Enc) (r : List Input) :
    State.afterEnc { s with inputs := r } f = { s.afterEnc f with inputs := r } := rfl

theorem afterDec_inputs_comm (s : State) (f : Effect Dec) (r : List Input) :
    State.afterDec { s with inputs := r } f = { s.afterDec f with inputs := r } := rfl

theorem handedBefore_inputs (p : Port) (cut : Option (Word × Nat)) (s : State) (r : List Input) :
    handedBefore p cut { s with inputs := r } = handedBefore p cut s := by
  cases cut with
  | none => rfl
  | some c =>
    cases p with
    | enc =>
      obtain ⟨F, hF⟩ := acceptWord_enc c.1
      simp [handedBefore, hF]
    | dec =>
      obtain ⟨F, hF⟩ := acceptWord_dec c.1
      simp [handedBefore, hF]

/-- Everything one input can do: it leaves the inputs to come as they are, and what else it does does
not depend on them. -/
theorem acceptInput_cases (x : Input) (s : State) :
    (∃ t, acceptInput x s = .next t ∧ t.inputs = s.inputs ∧
      ∀ r, acceptInput x { s with inputs := r } = .next { t with inputs := r }) ∨
    (∃ f, ∀ r, acceptInput x { s with inputs := r } = .fault f) := by
  cases x with
  | command p w =>
    cases p with
    | enc =>
      obtain ⟨F, hF⟩ := acceptWord_enc w
      exact .inl ⟨_, hF s, rfl, fun r => hF _⟩
    | dec =>
      obtain ⟨F, hF⟩ := acceptWord_dec w
      exact .inl ⟨_, hF s, rfl, fun r => hF _⟩
  | commandStalled p w k =>
    cases p with
    | enc =>
      obtain ⟨F, hF⟩ := acceptWord_enc w
      by_cases hk : k < (F s.enc).out.length
      · exact .inr ⟨.sinkNeverReady .enc, fun r => by simp [acceptInput, acceptStalled, hF, hk]⟩
      · exact .inl ⟨s.afterEnc (F s.enc), by simp [acceptInput, acceptStalled, hF, hk], rfl,
          fun r => by simp [acceptInput, acceptStalled, hF, hk]; rfl⟩
    | dec =>
      obtain ⟨F, hF⟩ := acceptWord_dec w
      by_cases hk : k < (F s.dec).out.length
      · exact .inr ⟨.sinkNeverReady .dec, fun r => by simp [acceptInput, acceptStalled, hF, hk]⟩
      · exact .inl ⟨s.afterDec (F s.dec), by simp [acceptInput, acceptStalled, hF, hk], rfl,
          fun r => by simp [acceptInput, acceptStalled, hF, hk]; rfl⟩
  | reset c d =>
    exact .inl ⟨_, rfl, rfl, fun r => by simp [acceptInput, resetUnits, handedBefore_inputs]⟩

@[simp] theorem does_nil (s : State) : s.does [] = .next s := rfl

theorem step_cons_of_accept {x : Input} {s t : State} (h : acceptInput x s = .next t)
    (rest : List Input) : step { s with inputs := x :: rest } = .next { t with inputs := rest } := by
  rcases acceptInput_cases x s with ⟨u, hu, -, hr⟩ | ⟨f, hf⟩
  · have : u = t := by rw [hu] at h; injection h
    subst this
    exact hr rest
  · have := hf s.inputs
    rw [h] at this
    exact absurd this (by simp)

/-- One input and then the rest. -/
theorem does_cons {x : Input} {s t : State} (h : acceptInput x s = .next t) (todo : List Input) :
    s.does (x :: todo) = t.does todo := by
  have hi : t.inputs = s.inputs := by
    rcases acceptInput_cases x s with ⟨u, hu, hi, -⟩ | ⟨f, hf⟩
    · rw [hu] at h; injection h with h; exact h ▸ hi
    · have := hf s.inputs; rw [h] at this; exact absurd this (by simp)
  have hs := step_cons_of_accept h (todo ++ s.inputs)
  have hg : step (s.given (x :: todo)) = .next (t.given todo) := by
    simp only [State.given, hi]; exact hs
  simp [State.does, stepN, hg]

theorem does_cons_fault {x : Input} {s : State} {f : Fault} (h : acceptInput x s = .fault f)
    (todo : List Input) : s.does (x :: todo) = .fault f := by
  rcases acceptInput_cases x s with ⟨u, hu, -, -⟩ | ⟨g, hg⟩
  · rw [h] at hu; exact absurd hu (by simp)
  · have h1 := hg s.inputs
    rw [h] at h1
    injection h1 with h1
    have h2 := hg (todo ++ s.inputs)
    simp [State.does, stepN, h2, h1]

/-- A run of two stretches. -/
theorem does_append {a b : List Input} {s t : State} (h : s.does a = .next t) :
    s.does (a ++ b) = t.does b := by
  induction a generalizing s with
  | nil =>
    simp at h
    simp [h]
  | cons x a ih =>
    cases hx : acceptInput x s with
    | next u =>
      rw [does_cons hx] at h
      rw [List.cons_append, does_cons hx]
      exact ih h
    | fault f => rw [does_cons_fault hx] at h; exact absurd h (by simp)
    | refused r =>
      rcases acceptInput_cases x s with ⟨u, hu, -, -⟩ | ⟨g, hg⟩
      · rw [hx] at hu; exact absurd hu (by simp)
      · have h1 := hg s.inputs; rw [hx] at h1; exact absurd h1 (by simp)

end Sys2Proof.Machine
end

