-- ==== Sys2Proof/Tests/Slice0.lean ====
section
/-! SUPPORT. Tests: ill-formed terms that the checks refuse; words of spec/95_test_vectors.md section 2
that decode as it says; one step of each command with the result that its sections 3 and 4 give; and
for each obligation with hypotheses a concrete case that meets them. -/

namespace Sys2Proof.Tests

open Sys2Proof Sys2Proof.Machine

/-! ### Well-formedness -/

theorem test_enc_command_is_ill_formed_on_the_dec_port : wellFormed .dec (.encSym 0x41) = false := by
  decide
theorem test_dec_command_is_ill_formed_on_the_enc_port : wellFormed .enc .decInit = false := by
  decide
theorem test_command_is_well_formed_on_its_port :
    wellFormed .enc (.ctApp 0xFF 15 0xFFFF) = true ∧ wellFormed .dec (.nmInt 511 511 511) = true := by
  decide
theorem test_ct_clr_symbol_out_of_range : (AsmLine.ctClr 256).wellFormed = false := by decide
theorem test_ct_app_operands_out_of_range :
    (AsmLine.ctApp 256 1 0).wellFormed = false ∧ (AsmLine.ctApp 0 0 0).wellFormed = false ∧
    (AsmLine.ctApp 0 17 0).wellFormed = false := by decide
theorem test_enc_sym_out_of_range : (AsmLine.encSym 256).wellFormed = false := by decide
theorem test_nm_leaf_operands_out_of_range :
    (AsmLine.nmLeaf 512 0).wellFormed = false ∧ (AsmLine.nmLeaf 0 256).wellFormed = false := by decide
theorem test_nm_int_operands_out_of_range :
    (AsmLine.nmInt 512 0 0).wellFormed = false ∧ (AsmLine.nmInt 0 512 0).wellFormed = false ∧
    (AsmLine.nmInt 0 0 512).wellFormed = false := by decide
theorem test_dec_start_operands_out_of_range :
    (AsmLine.decStart 512 0).wellFormed = false ∧ (AsmLine.decStart 0 8).wellFormed = false := by
  decide
theorem test_dec_byte_out_of_range : (AsmLine.decByte 256).wellFormed = false := by decide
theorem test_ct_set_operands_out_of_range :
    (AsmLine.ctSet 256 [true]).wellFormed = false ∧ (AsmLine.ctSet 0 []).wellFormed = false ∧
    (AsmLine.ctSet 0 (List.replicate 256 true)).wellFormed = false := by decide +kernel
theorem test_enc_str_symbol_out_of_range : (AsmLine.encStr [0, 256]).wellFormed = false := by decide
theorem test_dec_payload_byte_out_of_range : (AsmLine.decPayload [256]).wellFormed = false := by
  decide

/-! ### Decoding: X1 to X16, and the illegal words X20 to X33 -/

theorem test_x1 : decode .enc 0b00010000000000000000000000000000 = some .encInit := by decide
theorem test_x2 : decode .enc 0b00100000000000000000000001000001 = some (.ctClr 0x41) := by decide
theorem test_x4 : decode .enc 0b00110100000111111111111111111111 =
    some (.ctApp 0x41 15 0xFFFF) := by decide
theorem test_x5 : decode .enc 0b00110101001000100000000000000111 = some (.ctApp 0x52 2 7) := by
  decide
theorem test_x6 : decode .enc 0b01000000000000000000000001000001 = some (.encSym 0x41) := by decide
theorem test_x7 : decode .enc 0b01010000000000000000000000000000 = some .encFlush := by decide
theorem test_x8 : decode .dec 0b10000000000000000000000000000000 = some .decInit := by decide
theorem test_x9 : decode .dec 0b10010000000000000000000101000001 = some (.nmLeaf 1 0x41) := by
  decide
theorem test_x11 : decode .dec 0b10100000000000000000001111111111 = some (.nmInt 0 1 511) := by
  decide
theorem test_x12 : decode .dec 0b10100000000110000000111000001000 = some (.nmInt 6 7 8) := by decide
theorem test_x14 : decode .dec 0b10110000000000000000010100000110 = some (.decStart 5 6) := by
  decide
theorem test_x15 : decode .dec 0b11000000000000000000000010001010 = some (.decByte 0x8A) := by
  decide
theorem test_x16 : decode .dec 0b11010000000000000000000000000000 = some .decEnd := by decide

theorem test_x20_to_x26 : ([0x00000000, 0x10000001, 0x2000F041, 0x40000141, 0x50000001,
    0x60000000, 0x70000000, 0xE0000000, 0xF0000000, 0x80000000].map (decode .enc)).all
      Option.isNone = true := by decide
theorem test_x27_to_x33 : ([0x00000000, 0x60000000, 0x70000000, 0xE0000000, 0xF0000000,
    0x10000000, 0x40000041, 0x80000001, 0x90020000, 0xA8000000, 0xB00000F8, 0xC0000100,
    0xD0000001].map (decode .dec)).all Option.isNone = true := by decide

theorem test_table_words_go_to_their_ports :
    decodeTableWord 32 0x34220006 = some (.ctApp 0x42 2 6) ∧
    decodeTableWord 32 0xB0000506 = some (.decStart 5 6) ∧ decodeTableWord 32 0 = none := by decide

/-! ### One step of each command -/

/-- A state with the given encoder and the decoder of reset. -/
def withEnc (phase : Phase) (ct : Memory Bits) (acc : Byte) (nb : BitVec 3) : State :=
  { State.reset with enc := { Enc.reset with phase := phase, ct := ct, acc := acc, nb := nb } }

/-- A state with the given decoder and the encoder of reset. -/
def withDec (phase : Phase) (nm : Memory NodeEntry) (root : NodeIdx) (padr : Pad)
    (hold : Byte) (holdv : Bool) : State :=
  { State.reset with
    dec := { Dec.reset with phase := phase, nm := nm, root := root, padr := padr, cur := root,
                            hold := hold, holdv := holdv } }

/-- Tree T3 of 95_test_vectors.md, the tree of program P3. -/
def treeT3 : Memory NodeEntry :=
  [(0, .int 1 2), (1, .leaf 0x41), (2, .int 3 6), (3, .int 4 5), (4, .leaf 0x43), (5, .leaf 0x44),
   (6, .int 7 8), (7, .leaf 0x42), (8, .leaf 0x52)]

/-- Tree T1 of 95_test_vectors.md, the single-symbol tree. -/
def treeT1 : Memory NodeEntry := [(0, .int 1 511), (1, .leaf 0x41)]

/-- The word is the host's next input, on its own port. -/
def fed (w : Word) (s : State) : State := s.given [.command (portOfWord w) w]

/-- What the host observes of a next state (R11): the two status words and the two streams. -/
def observed : Host.Outcome State Fault Refusal → Option (Word × Word × List Byte × List Symbol)
  | .next t => some (encStatus t.enc, decStatus t.dec, t.eout, t.dout)
  | .fault _ => none
  | .refused _ => none

/-- V1. -/
theorem test_enc_init_leaves_fault :
    observed (step (fed 0x10000000
      { State.reset with enc := { Enc.reset with phase := .fault, cause := .noCode } })) =
      some (0, 0, [], []) := by decide

/-- V2: the code is gone, and the list with it. -/
theorem test_ct_clr : (match step (fed 0x20000041
      (withEnc .load [(0x41, [true, false, true])] 0 0)) with
    | .next t => decide (t.enc.ct = [] ∧ encStatus t.enc = 0)
    | _ => false) = true := by decide

/-- V16. -/
theorem test_ct_clr_after_done :
    observed (step (fed 0x20000041 (withEnc .done [] 0 0))) = some (0x00000023, 0, [], []) := by
  decide

/-- V4: the bits above the count are ignored. -/
theorem test_ct_app : (match step (fed 0x3422FFFD State.reset) with
    | .next t => decide (t.enc.ct = [(0x42, [true, false, true])])
    | _ => false) = true := by decide

/-- V8: one bit more than 255. -/
theorem test_ct_app_overflow : (match step (fed 0x34100001
      (withEnc .load [(0x41, List.replicate 255 true)] 0 0)) with
    | .next t => decide (encStatus t.enc = 0x00000043 ∧ (t.enc.code 0x41).length = 255)
    | _ => false) = true := by decide +kernel

/-- V5: a code of 16 bits. -/
theorem test_enc_sym_emits_two_bytes :
    observed (step (fed 0x40000041 (withEnc .load [(0x41, List.replicate 16 true)] 0 0))) =
      some (0x00000001, 0, [0xFF, 0xFF], []) := by decide +kernel

/-- V12: a symbol without a code, in mid-run. -/
theorem test_enc_sym_no_code :
    observed (step (fed 0x40000042 (withEnc .run [(0x41, [false])] 0 1))) =
      some (0x00001033, 0, [], []) := by decide

/-- V13. -/
theorem test_enc_flush :
    observed (step (fed 0x50000000 (withEnc .run [] 0xDC 7))) =
      some (0x00000102, 0, [0xDC], []) := by decide

/-- V14. -/
theorem test_enc_flush_with_nothing_pending :
    observed (step (fed 0x50000000 State.reset)) = some (0x00000002, 0, [], []) := by decide

/-- V17: an illegal word in RUN keeps the pending bit. -/
theorem test_illegal_word :
    observed (step (State.given (withEnc .run [] 0 1) [.command .enc 0x60000000])) =
      some (0x00001013, 0, [], []) := by decide

/-- V21, from the state of V34. -/
theorem test_dec_init_leaves_fault :
    observed (step (fed 0x80000000 { State.reset with
      dec := { Dec.reset with phase := .fault, cause := .truncated, nm := treeT3, padr := 2, cur := 3,
                              dstate := .descending, hold := 0x8A } })) =
      some (0, 0, [], []) := by decide

/-- V24: the last write to an entry wins. -/
theorem test_nm_leaf : (match step (fed 0x90000158
      (withDec .load [(0, .int 1 2), (1, .leaf 0x41), (2, .leaf 0x42)] 0 0 0 false)) with
    | .next t => decide (t.dec.nm = [(0, .int 1 2), (1, .leaf 0x58), (2, .leaf 0x42)])
    | _ => false) = true := by decide

/-- V23. -/
theorem test_nm_int : (match step (fed 0xA0180E08 (withDec .load [(0, .int 1 511)] 0 0 0 false)) with
    | .next t => decide (t.dec.nm = [(0, .int 1 511), (6, .int 7 8)] ∧ decStatus t.dec = 0)
    | _ => false) = true := by decide

/-- V25. -/
theorem test_dec_start :
    observed (step (fed 0xB0000506 State.reset)) = some (0, 0x00005601, [], []) := by decide

/-- V27: the byte before is consumed. -/
theorem test_dec_byte :
    observed (step (fed 0xC000008A (withDec .run treeT3 0 1 0x6E true))) =
      some (0, 0x8A000109, [], [0x41, 0x42, 0x52, 0x41]) := by decide

/-- V44: a fault in the middle keeps the old byte. -/
theorem test_dec_byte_fault_keeps_the_old_byte :
    observed (step (fed 0xC00000AA (withDec .run treeT1 0 0 0x10 true))) =
      some (0, 0x1000005B, [], [0x41, 0x41, 0x41]) := by decide

/-- V28. -/
theorem test_dec_end :
    observed (step (fed 0xD0000000 (withDec .run treeT3 0 1 0xDC true))) =
      some (0, 0xDC000102, [], [0x42, 0x52, 0x41]) := by decide

/-- V34: the walk stops at node 3. -/
theorem test_dec_end_truncated :
    observed (step (fed 0xD0000000 (withDec .run treeT3 0 2 0x8A true))) =
      some (0, 0x8A003267, [], [0x43, 0x41]) := by decide

theorem test_fetch_word_runs_next :
    observed (step (State.reset.withFetchWord 32 0x40000041)) = some (0x00000033, 0, [], []) := by
  decide

/-! ### The hypotheses of the obligations can be met -/

/-- A state in which both units are in LOAD, with a tree of two leaves and its codes. -/
def loaded : State :=
  { State.reset with
    enc := { Enc.reset with ct := [(0x41, [false]), (0x42, [true])] }
    dec := { Dec.reset with nm := [(0, .int 1 2), (1, .leaf 0x41), (2, .leaf 0x42)] } }

/-- The tree that `loaded` holds. -/
def twoLeaves : HostTree := .full (.leaf 0x41) (.leaf 0x42)

theorem test_loaded_inv : loaded.Inv where
  enc :=
    { table := by decide
      codes := fun sym => by
        simp only [Enc.code, loaded, Memory.read]
        split <;> [skip; split] <;> simp [Config.lMax]
      free := fun j _ => by simp [loaded, State.reset, Enc.reset]
      cause := by decide
      causes := by decide
      flushed := fun _ => rfl
      unflushed := fun _ => rfl }
  dec :=
    { nodes := by decide
      cause := by decide
      causes := by decide
      unstarted := fun _ => ⟨rfl, rfl, rfl, rfl⟩
      atRoot := fun _ _ => rfl
      descending := fun h => absurd h (by decide)
      unheld := fun h => absurd h (by decide)
      resting := fun _ => ⟨rfl, rfl⟩ }

theorem witness_DecodeOfEncodeIsTheCommand :
    wellFormed .enc (.ctApp 0xFF 15 0xFFFF) = true ∧ wellFormed .dec (.nmInt 511 0 511) = true := by
  decide
theorem witness_EncodeOfDecodeIsTheWord :
    decode .enc 0x3FFFFFFF = some (.ctApp 0xFF 15 0xFFFF) ∧
    decode .dec 0xA7FFFFFF = some (.nmInt 511 511 511) := by decide
theorem witness_IllegalWordsAndTheirEffect :
    decode .enc 0x80000000 = none ∧ decode .dec 0x10000000 = none ∧
    State.reset.enc.phase ≠ .fault ∧ (withEnc .fault [] 0 0).enc.phase = .fault := by decide
theorem witness_AssemblerLinesHaveTheTableWords :
    ∃ sym n code idx left right root pad byte : Nat,
      sym < 256 ∧ 1 ≤ n ∧ n ≤ 16 ∧ idx < 512 ∧ left < 512 ∧ right < 512 ∧ root < 512 ∧ pad < 8 ∧
      byte < 256 ∧ code = 0x1FFFF :=
  ⟨255, 16, 0x1FFFF, 511, 511, 511, 511, 7, 255, by decide⟩
theorem witness_CtAppIgnoresHighCodeBits :
    ∀ j, j ≤ (2 : BitVec 4).toNat → (0xFFFD : BitVec 16).getLsbD j = (0x5 : BitVec 16).getLsbD j := by
  decide
/-- The longest code that `CT_APP` can make, and two layouts that differ above the length. -/
theorem witness_PhysicalLayoutsStandForTheEntries :
    (239 : BitVec 8).toNat + ((15 : BitVec 4).toNat + 1) ≤ 255 ∧
    (0x1 : BitVec 255).getLsbD 0 = (0x3 : BitVec 255).getLsbD 0 ∧ (1 : BitVec 8).toNat = 1 := by
  decide
theorem witness_StepRunsTheDecodedCommand :
    decode .enc 0x10000000 = some .encInit ∧ State.reset.inputs = [] := by decide
theorem witness_OnlyASinkThatIsNeverReadyStopsTheMachine :
    step (State.given (withEnc .run [] 0xDC 7) [.commandStalled .enc 0x50000000 0]) =
      .fault (.sinkNeverReady .enc) := rfl
theorem witness_StalledSinkStopsOnlyAStepWithBytesLeft :
    (∃ u, step { withEnc .run [] 0xDC 7 with inputs := [.command .enc 0x50000000] } = .next u ∧
      ((withEnc .run [] 0xDC 7).stream .enc).length + 0 < (u.stream .enc).length) ∧
    ∃ u, step { withEnc .run [] 0xDC 7 with inputs := [.command .enc 0x50000000] } = .next u ∧
      ¬ ((withEnc .run [] 0xDC 7).stream .enc).length + 1 < (u.stream .enc).length :=
  ⟨⟨_, rfl, by decide⟩, ⟨_, rfl, by decide⟩⟩
theorem witness_ResetKeepsOnlyTheBytesHandedOver :
    (∃ u, step { withEnc .run [] 0xDC 7 with inputs := [.command .enc 0x50000000] } = .next u) ∧
    ∃ u, step { withDec .run treeT3 0 1 0x6E true with
        inputs := [.command .dec 0xC000008A] } = .next u := ⟨⟨_, rfl⟩, ⟨_, rfl⟩⟩
theorem witness_ResetAndInitLeaveTheTabledValues :
    (∃ t, step { loaded with inputs := [.reset none none] } = .next t) ∧
    (∃ t, exec .encInit loaded = .next t) ∧ ∃ t, exec .decInit loaded = .next t :=
  ⟨⟨_, rfl⟩, ⟨_, rfl⟩, ⟨_, rfl⟩⟩
theorem witness_EncInitResult :
    (∃ t, step { withEnc .done [] 0 0 with inputs := [.command .enc 0x10000000] } = .next t ∧
      t.enc.phase = .load) ∧
    ∃ t, step { withEnc .done [] 0 0 with inputs := [.command .enc 0x50000000] } = .next t ∧
      t.enc.phase = .fault := ⟨⟨_, rfl, rfl⟩, ⟨_, rfl, rfl⟩⟩
theorem witness_CtClrResult :
    loaded.enc.phase = .load ∧ (withEnc .run [] 0 0).enc.phase = .run ∧
    (withEnc .done [] 0 0).enc.phase = .done := by decide
theorem witness_CtAppResult :
    loaded.enc.phase = .load ∧ (withEnc .run [] 0 0).enc.phase = .run ∧
    (withEnc .done [] 0 0).enc.phase = .done ∧
    ((withEnc .load [(0x41, List.replicate 239 true)] 0 0).enc.code 0x41).length +
      ((15 : BitVec 4).toNat + 1) = 255 ∧
    255 < ((withEnc .load [(0x41, List.replicate 240 true)] 0 0).enc.code 0x41).length +
      ((15 : BitVec 4).toNat + 1) := by decide +kernel
theorem witness_EncSymResult :
    (loaded.enc.Inv ∧ loaded.enc.phase = .load ∧ loaded.enc.code 0x42 ≠ []) ∧
    loaded.enc.code 0x43 = [] ∧ (withEnc .done [] 0 0).enc.phase = .done :=
  ⟨⟨test_loaded_inv.enc, rfl, by decide⟩, by decide⟩
theorem witness_EncFlushResult :
    (withEnc .run [] 0x80 1).enc.phase = .run ∧ (withEnc .run [] 0x80 1).enc.nb ≠ 0 ∧
    loaded.enc.phase = .load ∧ loaded.enc.nb = 0 ∧ (withEnc .done [] 0 0).enc.phase = .done := by
  decide
theorem witness_BytesEmittedByOneEncCommand : loaded.enc.Inv := test_loaded_inv.enc
theorem witness_CommandInAWrongPhaseIsAProtocolFault :
    exec (.encSym 0x41) (withEnc .done [] 0 0) =
      .next { withEnc .done [] 0 0 with
        enc := { Enc.reset with phase := .fault, cause := .protocol } } ∧
    exec .decEnd State.reset =
      .next { State.reset with dec := { Dec.reset with phase := .fault, cause := .protocol } } :=
  ⟨rfl, rfl⟩
theorem witness_FaultIgnoresEveryWordButInit :
    (withEnc .fault [] 0 0).enc.phase = .fault ∧ (0x10000001 : Word) ≠ 0x10000000 ∧
    (withDec .fault [] 0 0 0 false).dec.phase = .fault ∧ (0x80000001 : Word) ≠ 0x80000000 := by
  decide
theorem witness_FaultEntryKeepsTheRestOfTheUnit :
    (∃ t, loaded.enc.phase ≠ .fault ∧
      step { loaded with inputs := [.command .enc 0x40000043] } = .next t ∧ t.enc.phase = .fault) ∧
    ∃ t, (withDec .run treeT1 0 0 0x10 true).dec.phase ≠ .fault ∧
      step { withDec .run treeT1 0 0 0x10 true with inputs := [.command .dec 0xC00000AA] } =
        .next t ∧ t.dec.phase = .fault :=
  ⟨⟨_, by decide, rfl, rfl⟩, ⟨_, by decide, rfl, rfl⟩⟩
theorem witness_DecInitResult :
    (∃ t, step { withDec .done [] 0 0 0 false with inputs := [.command .dec 0x80000000] } =
      .next t ∧ t.dec.phase = .load) ∧
    ∃ t, step { withDec .done [] 0 0 0 false with inputs := [.command .dec 0xD0000000] } =
      .next t ∧ t.dec.phase = .fault := ⟨⟨_, rfl, rfl⟩, ⟨_, rfl, rfl⟩⟩
theorem witness_NmLeafResult :
    loaded.dec.phase = .load ∧ (withDec .run [] 0 0 0 false).dec.phase = .run ∧
    (withDec .done [] 0 0 0 false).dec.phase = .done := by decide
theorem witness_NmIntResult :
    loaded.dec.phase = .load ∧ (withDec .run [] 0 0 0 false).dec.phase = .run ∧
    (withDec .done [] 0 0 0 false).dec.phase = .done := by decide
theorem witness_DecStartResult :
    loaded.dec.phase = .load ∧ (withDec .run [] 0 0 0 false).dec.phase = .run ∧
    (withDec .done [] 0 0 0 false).dec.phase = .done := by decide
/-- The five cases of `step_bit`, at trees T1 and T3. -/
theorem witness_StepBitFollowsTheSelectedChild :
    (∀ l r, (withDec .run [(0, .leaf 0x41)] 0 0 0 false).dec.node 0 ≠ .int l r) ∧
    (withDec .run treeT1 0 0 0 false).dec.node 0 = .int 1 511 ∧
    (withDec .run treeT1 0 0 0 false).dec.node 511 = .invalid ∧
    (withDec .run treeT3 0 0 0 false).dec.node 0 = .int 1 2 ∧
    (withDec .run treeT3 0 0 0 false).dec.node 1 = .leaf 0x41 ∧
    (withDec .run treeT3 0 0 0 false).dec.node 2 = .int 3 6 :=
  ⟨fun _ _ h => NodeEntry.noConfusion (show NodeEntry.leaf 0x41 = .int _ _ from h), by decide, by decide, by decide, by decide, by decide⟩
/-- Bits 3 and 2 of the byte 0x10 on tree T1: after three zeros a one faults, and every further count
ends the same. -/
theorem witness_ConsumeBitsStopsAtTheFirstFault :
    (∃ u u', consumeBits 0x10 2 (withDec .run treeT1 0 0 0 false).dec = .ran u [0x41, 0x41] ∧
      stepBit ((0x10 : Byte).getLsbD 5) u = .ran u' [0x41]) ∧
    (∃ u u', consumeBits 0x10 3 (withDec .run treeT1 0 0 0 false).dec =
        .ran u [0x41, 0x41, 0x41] ∧ stepBit ((0x10 : Byte).getLsbD 4) u = .raised u' []) ∧
    ∃ u, consumeBits 0x10 4 (withDec .run treeT1 0 0 0 false).dec =
      .raised u [0x41, 0x41, 0x41] :=
  ⟨⟨_, _, rfl, rfl⟩, ⟨_, _, rfl, rfl⟩, ⟨_, rfl⟩⟩
theorem witness_DecByteResult :
    (withDec .run treeT3 0 0 0 false).dec.holdv = false ∧
    (∃ d, stepBits (byteBits 0x6E) (withDec .run treeT3 0 0 0x6E true).dec =
      .ran d [0x41, 0x42, 0x52, 0x41]) ∧
    (∃ d, stepBits (byteBits 0x10) (withDec .run treeT1 0 0 0x10 true).dec =
      .raised d [0x41, 0x41, 0x41]) ∧
    loaded.dec.phase = .load := ⟨rfl, ⟨_, rfl⟩, ⟨_, rfl⟩, rfl⟩
theorem witness_DecEndResult :
    (∃ d, stepBits ((byteBits 0xDC).take (8 - 1)) (withDec .run treeT3 0 1 0xDC true).dec =
      .ran d [0x42, 0x52, 0x41] ∧ d.dstate = .atRoot) ∧
    (∃ d, stepBits ((byteBits 0x8A).take (8 - 2)) (withDec .run treeT3 0 2 0x8A true).dec =
      .ran d [0x43, 0x41] ∧ d.dstate = .descending) ∧
    (∃ d, stepBits ((byteBits 0x20).take (8 - 0)) (withDec .run treeT1 0 0 0x20 true).dec =
      .raised d [0x41, 0x41]) ∧
    (withDec .run treeT1 0 3 0 false).dec.padr ≠ 0 ∧
    (withDec .run treeT1 0 0 0 false).dec.dstate = .atRoot ∧
    (∃ d : Dec, d.phase = .run ∧ d.holdv = false ∧ d.padr = 0 ∧ d.dstate = .descending) ∧
    loaded.dec.phase = .load :=
  ⟨⟨_, rfl, rfl⟩, ⟨_, rfl, rfl⟩, ⟨_, rfl⟩, by decide, rfl,
    ⟨{ Dec.reset with phase := .run, dstate := .descending }, rfl, rfl, rfl, rfl⟩, rfl⟩
theorem witness_PadBitsAreNotInspected :
    ∀ j, (1 : Pad).toNat ≤ j → (0xDC : Byte).getLsbD j = (0xDD : Byte).getLsbD j := by
  intro j hj
  match j, hj with
  | 1, _ | 2, _ | 3, _ | 4, _ | 5, _ | 6, _ | 7, _ => rfl
  | n + 8, _ => simp [BitVec.getLsbD_of_ge]
theorem witness_StatusShowsACauseOfItsUnit : loaded.Inv := test_loaded_inv
theorem witness_EveryStepKeepsTheInvariant :
    State.Inv { loaded with inputs := [.command .enc 0x40000041] } ∧
    ∃ t, step { loaded with inputs := [.command .enc 0x40000041] } = .next t :=
  ⟨⟨test_loaded_inv.enc, test_loaded_inv.dec⟩, ⟨_, rfl⟩⟩
theorem witness_AWordReachesOnlyItsOwnUnit :
    (withDec .run treeT3 0 0 0 false).enc = State.reset.enc ∧
    (withDec .run treeT3 0 0 0 false).eout = State.reset.eout ∧
    (withEnc .run [] 0x80 1).dec = State.reset.dec ∧
    (withEnc .run [] 0x80 1).dout = State.reset.dout := ⟨rfl, rfl, rfl, rfl⟩
theorem witness_InterleavingGivesEachUnitItsOwnRun :
    ∃ t, loaded.does [.command .enc 0x40000042, .command .dec 0xB0000000, .reset none none] =
      .next t := ⟨_, rfl⟩
theorem witness_StreamsOnlyGrow :
    ∃ t, step { withEnc .run [] 0xDC 7 with inputs := [.command .enc 0x50000000] } = .next t ∧
      t.eout = [0xDC] := ⟨_, rfl, rfl⟩
theorem witness_TablesAreFrozenAfterLoading :
    (∃ t, (withEnc .run [(0x41, [false])] 0 1).enc.phase ≠ .load ∧
      step { withEnc .run [(0x41, [false])] 0 1 with inputs := [.command .enc 0x34200001] } =
        .next t) ∧
    ∃ t, (withDec .run treeT1 0 0 0 false).dec.phase ≠ .load ∧
      step { withDec .run treeT1 0 0 0 false with inputs := [.command .dec 0x90000041] } =
        .next t := ⟨⟨_, by decide, rfl⟩, ⟨_, by decide, rfl⟩⟩
theorem witness_TablesAreWrittenOnlyByTheirCommands :
    (∃ t, step { loaded with inputs := [.command .enc 0x20000041] } = .next t ∧
      t.enc.ct ≠ loaded.enc.ct) ∧
    ∃ t, step { loaded with inputs := [.command .dec 0x90000058] } = .next t ∧
      t.dec.nm ≠ loaded.dec.nm := ⟨⟨_, rfl, by decide⟩, ⟨_, rfl, by decide⟩⟩
theorem witness_CtSetLoadsTheWholeCode :
    (AsmLine.ctSet 0 [true]).wellFormed = true ∧
    (AsmLine.ctSet 255 (List.replicate 255 true)).wellFormed = true ∧
    State.reset.enc.phase = .load := by decide +kernel
theorem witness_EmptyPayloadDecodesToNothing : loaded.dec.phase = .load := by decide
theorem witness_EncoderRunPacksTheCodes :
    ∃ u, State.reset.does (writes [.encInit, .ctApp 0x41 0 0, .ctApp 0x42 1 2]) = .next u ∧
      u.enc.phase = .load ∧ ∀ y ∈ [0x41, 0x42, 0x41], u.enc.code y ≠ [] :=
  ⟨_, rfl, rfl, by decide⟩
/-- The clauses of the run of DEC: no byte and a pad count, a walk that ends at the root, one that
ends inside a code, and one that faults. -/
theorem witness_DecoderRunWalksTheDataBits :
    (∃ u, State.reset.does (writes [.decInit, .nmInt 0 1 511, .nmLeaf 1 0x41]) = .next u ∧
      (∃ d, stepBits (([0x00] : List Byte).flatMap byteBits |>.take (8 * 1 - 3))
        { u.dec with root := 0, cur := 0, dstate := .atRoot } =
          .ran d [0x41, 0x41, 0x41, 0x41, 0x41] ∧ d.dstate = .atRoot) ∧
      ∃ d, stepBits (([0x20] : List Byte).flatMap byteBits |>.take (8 * 1 - 0))
        { u.dec with root := 0, cur := 0, dstate := .atRoot } = .raised d [0x41, 0x41]) ∧
    ∃ u, State.reset.does (writes [.decInit, .nmInt 0 0 0]) = .next u ∧
      ∃ d, stepBits (([0xFF] : List Byte).flatMap byteBits |>.take (8 * 1 - 0))
        { u.dec with root := 0, cur := 0, dstate := .atRoot } = .ran d [] ∧
          d.dstate = .descending :=
  ⟨⟨_, rfl, ⟨_, rfl, rfl⟩, ⟨_, rfl⟩⟩, ⟨_, rfl, ⟨_, rfl, rfl⟩⟩⟩
theorem witness_RoundTripOfLoadedTables :
    loaded.Inv ∧ loaded.enc.phase = .load ∧ loaded.dec.phase = .load ∧
    twoLeaves.tabled loaded.enc ∧ twoLeaves.heldAt loaded.dec 0 ∧
    ∀ y ∈ [0x42, 0x41, 0x42], y ∈ twoLeaves.symbols :=
  ⟨test_loaded_inv, rfl, rfl, by unfold HostTree.tabled; decide, ⟨1, 2, rfl, rfl, rfl⟩, by decide⟩
/-- The loads in another order than the model's lists, for both kinds of tree that have nodes. -/
theorem witness_RoundTripOfTheHostsCalls :
    ([(0x42, [true]), (0x41, [false])].Perm twoLeaves.codes ∧
      [Instr.nmLeaf 2 0x42, .nmLeaf 1 0x41, .nmInt 0 1 2].Perm twoLeaves.loads ∧
      twoLeaves.symbols.Nodup ∧ ∀ y ∈ [0x42, 0x41, 0x42], y ∈ twoLeaves.symbols) ∧
    [(0x41, [false])].Perm (HostTree.single 0x41).codes ∧
      [Instr.nmLeaf 1 0x41, .nmInt 0 1 511].Perm (HostTree.single 0x41).loads ∧
      (HostTree.single 0x41).symbols.Nodup ∧
      ∀ y ∈ [0x41, 0x41, 0x41, 0x41, 0x41], y ∈ (HostTree.single 0x41).symbols := by decide
/-- R192, R194: for the empty tree the host loads nothing and gives root 0. -/
theorem test_empty_tree_loads_nothing :
    HostTree.empty.codes.Perm HostTree.empty.codes ∧ HostTree.empty.symbols.Nodup ∧
    encodeCall HostTree.empty.codes [] = [.encInit, .encFlush] ∧
    decodeCall HostTree.empty.loads 0 [] = [.decInit, .decStart 0 0, .decEnd] := by decide
/-- Nine symbols of one bit each are two bytes with pad count 7; cut to one byte, one data bit is
left, which ends at a code boundary. -/
theorem witness_CutPayloadFaultsUnlessAtACodeBoundary :
    ∃ u v, loaded.does (writes ((List.replicate 9 0x42).map .encSym ++ [.encFlush])) = .next u ∧
      u.eout = loaded.eout ++ v ∧ v ≠ [] ∧
      (((List.replicate 9 0x42).take 1).flatMap loaded.enc.code).length + u.enc.pad.toNat =
        8 * (v.length - 1) := ⟨_, [0xFF, 0x80], rfl, by decide, by decide, by decide⟩
/-- One symbol of one bit is one byte with pad count 7; cut to no byte, the pad count is left over,
and there is no boundary. -/
theorem witness_CutPayloadWithoutABoundary :
    ∃ u v, loaded.does (writes ([0x42].map .encSym ++ [.encFlush])) = .next u ∧
      u.eout = loaded.eout ++ v ∧ v ≠ [] ∧
      ¬ ∃ n, ((([0x42] : List Symbol).take n).flatMap loaded.enc.code).length + u.enc.pad.toNat =
        8 * (v.length - 1) :=
  ⟨_, [0x80], rfl, by decide, by decide, fun ⟨n, h⟩ => by
    have hp : (7 : Nat) ≤ 8 * ([0x80].length - 1) := le_of_le_of_eq (Nat.le_add_left 7 _) h
    exact absurd hp (by decide)⟩

end Sys2Proof.Tests
end

/-! PROOFS of the scope statements (spec/00_scope.md): what a step is, that the two units do not
reach each other, and that the output streams only grow. -/

namespace Sys2Proof.Machine

/-! ### What a step is -/

theorem step_of_no_inputs {s : State} (h : s.inputs = []) : step s = .next s := by
  simp [step, h]

theorem step_of_inputs {s : State} {x : Input} {rest : List Input} (h : s.inputs = x :: rest) :
    step s = acceptInput x { s with inputs := rest } := by
  simp [step, h]

theorem step_command (p : Port) (w : Word) (s : State) (rest : List Input) :
    step { s with inputs := .command p w :: rest } = acceptWord p w { s with inputs := rest } := rfl

theorem acceptWord_of_decode {p : Port} {w : Word} {i : Instr} (h : decode p w = some i)
    (s : State) : acceptWord p w s = exec i s := by
  simp [acceptWord, h]

/-- Everything a word can do: an effect on the unit of its port (R9, R110, R140). -/
theorem acceptWord_eq_next {p : Port} {w : Word} {s t : State} (h : acceptWord p w s = .next t) :
    (p = .enc ∧ ∃ f, t = s.afterEnc f) ∨ (p = .dec ∧ ∃ f, t = s.afterDec f) := by
  cases p with
  | enc =>
    obtain ⟨F, hF⟩ := acceptWord_enc w
    exact .inl ⟨rfl, F s.enc, by simpa [hF, eq_comm] using h⟩
  | dec =>
    obtain ⟨F, hF⟩ := acceptWord_dec w
    exact .inr ⟨rfl, F s.dec, by simpa [hF, eq_comm] using h⟩

/-- A stalled sink lets a step end only when the step has no byte left for it, and then the step is
the ordinary one (R257). -/
theorem acceptStalled_eq_next_iff {p : Port} {w : Word} {handed : Nat} {s t : State} :
    acceptStalled p w handed s = .next t ↔
      acceptWord p w s = .next t ∧ (emittedAt p s t).length ≤ handed := by
  unfold acceptStalled
  cases acceptWord p w s with
  | next u =>
    dsimp only
    split
    · next hlt =>
      simp only [reduceCtorEq, Host.Outcome.next.injEq, false_iff, not_and, Nat.not_le]
      rintro rfl
      exact hlt
    · next hge =>
      simp only [Host.Outcome.next.injEq, iff_self_and]
      rintro rfl
      exact Nat.le_of_not_lt hge
  | fault f => simp
  | refused r => simp

/-- A run that begins with an input ends in a next state only if the input and the rest do. -/
theorem does_cons_eq_next {x : Input} {todo : List Input} {s t : State}
    (h : s.does (x :: todo) = .next t) :
    ∃ u, acceptInput x s = .next u ∧ u.does todo = .next t := by
  rcases acceptInput_cases x s with ⟨u, hu, -, -⟩ | ⟨f, hf⟩
  · exact ⟨u, hu, by rwa [does_cons hu] at h⟩
  · rw [does_cons_fault (hf s.inputs)] at h
    exact absurd h (by simp)

/-! ### One side of the machine: a unit and its stream -/

/-- The unit behind the port with the history of its output stream: all that a word on the port may
read or write (R9, R20). -/
def State.side (s : State) : Port → (Enc ⊕ Dec) × List Byte
  | .enc => (.inl s.enc, s.eout)
  | .dec => (.inr s.dec, s.dout)

theorem State.side_enc_eq_iff {s u : State} :
    s.side .enc = u.side .enc ↔ s.enc = u.enc ∧ s.eout = u.eout := by
  simp [State.side]

theorem State.side_dec_eq_iff {s u : State} :
    s.side .dec = u.side .dec ↔ s.dec = u.dec ∧ s.dout = u.dout := by
  simp [State.side]

theorem State.side_snd (s : State) (p : Port) : (s.side p).2 = s.stream p := by
  cases p <;> rfl

theorem emittedAt_of_side {p : Port} {s t u v : State} (hs : s.side p = u.side p)
    (ht : t.side p = v.side p) : emittedAt p s t = emittedAt p u v := by
  simp only [emittedAt, ← State.side_snd, hs, ht]

/-- A word on a port leaves the other side alone (R9). -/
theorem acceptWord_side_of_ne {p q : Port} (hq : q ≠ p) {w : Word} {s t : State}
    (h : acceptWord p w s = .next t) : t.side q = s.side q := by
  rcases acceptWord_eq_next h with ⟨rfl, f, rfl⟩ | ⟨rfl, f, rfl⟩
  · cases q with
    | enc => exact absurd rfl hq
    | dec => rfl
  · cases q with
    | enc => rfl
    | dec => exact absurd rfl hq

/-- What a word does to its own side is decided by that side, and it always answers a next state. -/
theorem acceptWord_of_side {p : Port} {s u : State} (hsu : s.side p = u.side p) (w : Word) :
    ∃ t v, acceptWord p w s = .next t ∧ acceptWord p w u = .next v ∧ t.side p = v.side p := by
  cases p with
  | enc =>
    obtain ⟨F, hF⟩ := acceptWord_enc w
    obtain ⟨henc, heout⟩ := State.side_enc_eq_iff.1 hsu
    exact ⟨_, _, hF s, hF u, State.side_enc_eq_iff.2 (by simp [henc, heout])⟩
  | dec =>
    obtain ⟨F, hF⟩ := acceptWord_dec w
    obtain ⟨hdec, hdout⟩ := State.side_dec_eq_iff.1 hsu
    exact ⟨_, _, hF s, hF u, State.side_dec_eq_iff.2 (by simp [hdec, hdout])⟩

/-- The bytes that a cut step has handed over are decided by its own side (R253). -/
theorem handedBefore_of_side {p : Port} {s u : State} (hsu : s.side p = u.side p)
    (cut : Option (Word × Nat)) : handedBefore p cut s = handedBefore p cut u := by
  cases cut with
  | none => rfl
  | some c =>
    obtain ⟨t, v, ht, hv, htv⟩ := acceptWord_of_side hsu c.1
    simp only [handedBefore, ht, hv, emittedAt_of_side hsu htv]

theorem resetUnits_side_of_side {p : Port} {s u : State} (hsu : s.side p = u.side p)
    (encCut decCut : Option (Word × Nat)) :
    (resetUnits encCut decCut s).side p = (resetUnits encCut decCut u).side p := by
  cases p with
  | enc =>
    refine State.side_enc_eq_iff.2 ⟨rfl, ?_⟩
    simp [handedBefore_of_side hsu, (State.side_enc_eq_iff.1 hsu).2]
  | dec =>
    refine State.side_dec_eq_iff.2 ⟨rfl, ?_⟩
    simp [handedBefore_of_side hsu, (State.side_dec_eq_iff.1 hsu).2]

/-! ### Inputs and runs, seen from one side -/

/-- An input that does not concern a unit leaves its side alone. -/
theorem acceptInput_side_of_not_concerns {p : Port} {x : Input} (hx : x.concerns p = false)
    {s t : State} (h : acceptInput x s = .next t) : t.side p = s.side p := by
  cases x with
  | command q w =>
    exact acceptWord_side_of_ne (Ne.symm (by simpa [Input.concerns] using hx)) h
  | commandStalled q w handed =>
    exact acceptWord_side_of_ne (Ne.symm (by simpa [Input.concerns] using hx))
      (acceptStalled_eq_next_iff.1 h).1
  | reset encCut decCut => simp [Input.concerns] at hx

/-- What an input that concerns a unit does to its side is decided by that side. -/
theorem acceptInput_of_side {p : Port} {x : Input} (hx : x.concerns p = true) {s t u : State}
    (hsu : s.side p = u.side p) (h : acceptInput x s = .next t) :
    ∃ v, acceptInput x u = .next v ∧ t.side p = v.side p := by
  cases x with
  | command q w =>
    obtain rfl : q = p := by simpa [Input.concerns] using hx
    obtain ⟨t', v, ht', hv, htv⟩ := acceptWord_of_side hsu w
    obtain rfl : t' = t := by simpa [acceptInput, ht'] using h
    exact ⟨v, hv, htv⟩
  | commandStalled q w handed =>
    obtain rfl : q = p := by simpa [Input.concerns] using hx
    obtain ⟨ht, hk⟩ := acceptStalled_eq_next_iff.1 h
    obtain ⟨t', v, ht', hv, htv⟩ := acceptWord_of_side hsu w
    obtain rfl : t' = t := by simpa [ht'] using ht
    rw [emittedAt_of_side hsu htv] at hk
    exact ⟨v, acceptStalled_eq_next_iff.2 ⟨hv, hk⟩, htv⟩
  | reset encCut decCut =>
    obtain rfl : resetUnits encCut decCut s = t := by simpa [acceptInput] using h
    exact ⟨_, rfl, resetUnits_side_of_side hsu encCut decCut⟩

/-- The inputs that concern a unit, run alone from any state with the same side, end with the side
that the whole run ends with (R9). -/
theorem does_filter_concerns {p : Port} {todo : List Input} {s t u : State}
    (hsu : s.side p = u.side p) (h : s.does todo = .next t) :
    ∃ v, u.does (todo.filter (Input.concerns p)) = .next v ∧ t.side p = v.side p := by
  induction todo generalizing s u with
  | nil =>
    obtain rfl : s = t := by simpa using h
    exact ⟨u, rfl, hsu⟩
  | cons x todo ih =>
    obtain ⟨s', hs', hrest⟩ := does_cons_eq_next h
    cases hx : x.concerns p with
    | true =>
      obtain ⟨u', hu', hsu'⟩ := acceptInput_of_side hx hsu hs'
      obtain ⟨v, hv, htv⟩ := ih hsu' hrest
      exact ⟨v, by rw [List.filter_cons_of_pos hx, does_cons hu', hv], htv⟩
    | false =>
      have hsu' := (acceptInput_side_of_not_concerns hx hs').trans hsu
      obtain ⟨v, hv, htv⟩ := ih hsu' hrest
      exact ⟨v, by rw [List.filter_cons_of_neg (by simp [hx]), hv], htv⟩

/-! ### The streams -/

theorem acceptWord_stream_prefix {p : Port} {w : Word} {s t : State}
    (h : acceptWord p w s = .next t) (q : Port) : s.stream q <+: t.stream q := by
  rcases acceptWord_eq_next h with ⟨rfl, f, rfl⟩ | ⟨rfl, f, rfl⟩
  · cases q with
    | enc => exact List.prefix_append _ _
    | dec => exact List.prefix_refl _
  · cases q with
    | enc => exact List.prefix_refl _
    | dec => exact List.prefix_append _ _

theorem acceptInput_stream_prefix {x : Input} {s t : State} (h : acceptInput x s = .next t)
    (q : Port) : s.stream q <+: t.stream q := by
  cases x with
  | command p w => exact acceptWord_stream_prefix h q
  | commandStalled p w handed => exact acceptWord_stream_prefix (acceptStalled_eq_next_iff.1 h).1 q
  | reset encCut decCut =>
    obtain rfl : resetUnits encCut decCut s = t := by simpa [acceptInput] using h
    cases q with
    | enc => exact List.prefix_append _ _
    | dec => exact List.prefix_append _ _

theorem step_stream_prefix {s t : State} (h : step s = .next t) (q : Port) :
    s.stream q <+: t.stream q := by
  cases hi : s.inputs with
  | nil =>
    obtain rfl : s = t := by simpa [step_of_no_inputs hi] using h
    exact List.prefix_refl _
  | cons x rest =>
    rw [step_of_inputs hi] at h
    cases q with
    | enc => exact acceptInput_stream_prefix h .enc
    | dec => exact acceptInput_stream_prefix h .dec

/-! ### The obligations -/

/-- Settles O40: each input either leaves the side of a unit alone or acts on it by that side only,
and the run is an induction over the inputs. -/
theorem interleavingGivesEachUnitItsOwnRun : Obligations.InterleavingGivesEachUnitItsOwnRun := by
  intro todo s t h
  obtain ⟨u, hu, henc⟩ := does_filter_concerns (p := .enc) rfl h
  obtain ⟨v, hv, hdec⟩ := does_filter_concerns (p := .dec) rfl h
  exact ⟨⟨u, hu, State.side_enc_eq_iff.1 henc.symm⟩, ⟨v, hv, State.side_dec_eq_iff.1 hdec.symm⟩⟩

/-- Settles O39: what a word does is an effect of the state of its own unit. -/
theorem aWordReachesOnlyItsOwnUnit : Obligations.AWordReachesOnlyItsOwnUnit := by
  intro w s s' rest rest'
  constructor
  · obtain ⟨F, hF⟩ := acceptWord_enc w
    refine ⟨_, (step_command ..).trans (hF _), rfl, rfl, fun henc heout => ?_⟩
    rw [step_command, hF]
    simp [State.afterEnc, henc, heout]
  · obtain ⟨F, hF⟩ := acceptWord_dec w
    refine ⟨_, (step_command ..).trans (hF _), rfl, rfl, fun hdec hdout => ?_⟩
    rw [step_command, hF]
    simp [State.afterDec, hdec, hdout]

/-- Settles O41: a word, a reset and a step without input only append to the streams. -/
theorem streamsOnlyGrow : Obligations.StreamsOnlyGrow :=
  fun _ _ h => ⟨step_stream_prefix h .enc, step_stream_prefix h .dec⟩

/-- Settles O9: a step takes the word from the inputs, and the word's port decodes it. -/
theorem stepRunsTheDecodedCommand : Obligations.StepRunsTheDecodedCommand :=
  ⟨fun p w _ s rest h => (step_command p w s rest).trans (acceptWord_of_decode h _),
    fun _ => step_of_no_inputs⟩

end Sys2Proof.Machine

/-! PROOFS of the state statements (spec/10_state.md): what a step can do to each unit, the invariant of
the machine, who writes the tables, the state after reset, the status words, and what the physical
layouts of the two memories stand for. -/

namespace Sys2Proof.Machine

/-! ### What a step can do to each unit -/

/-- The next input, which leaves `rest` to come, is the word `w` at the port `p`, whether or not its
sink stalls. -/
def Input.isWord (p : Port) (w : Word) (x : Input) : Prop :=
  x = .command p w ∨ ∃ k, x = .commandStalled p w k

/-- Everything a step can do: nothing without an input, a reset, or the whole step of a word
(R10, R242, R250). -/
theorem step_cases {s t : State} (h : step s = .next t) :
    t = s ∨
    (∃ c d rest, s.inputs = .reset c d :: rest ∧ t = resetUnits c d { s with inputs := rest }) ∨
    (∃ p w x rest, s.inputs = x :: rest ∧ x.isWord p w ∧
      acceptWord p w { s with inputs := rest } = .next t) := by
  cases hi : s.inputs with
  | nil => exact .inl (by simpa [step_of_no_inputs hi, eq_comm] using h)
  | cons x rest =>
    rw [step_of_inputs hi] at h
    cases x with
    | command p w => exact .inr (.inr ⟨p, w, _, rest, rfl, .inl rfl, h⟩)
    | commandStalled p w k =>
      exact .inr (.inr ⟨p, w, _, rest, rfl, .inr ⟨k, rfl⟩, (acceptStalled_eq_next_iff.1 h).1⟩)
    | reset c d =>
      exact .inr (.inl ⟨c, d, rest, rfl, by simpa [acceptInput, eq_comm] using h⟩)

theorem whileLoading_iff {ph : Phase} : whileLoading ph = true ↔ ph = .load := by
  cases ph <;> simp [whileLoading]

theorem untilFlushed_iff {ph : Phase} : untilFlushed ph = true ↔ ph = .load ∨ ph = .run := by
  cases ph <;> simp [untilFlushed]

theorem whileRunning_iff {ph : Phase} : whileRunning ph = true ↔ ph = .run := by
  cases ph <;> simp [whileRunning]

/-- The unit that a word on the ENC port leaves, by what the word is and the phase it comes in
(R110, R117). -/
inductive EncMove (w : Word) (e : Enc) : Enc → Prop where
  /-- Every word but `ENC_INIT` is ignored in FAULT (R233). -/
  | ignored (hp : e.phase = .fault) : EncMove w e e
  | init (hw : decode .enc w = some .encInit) : EncMove w e Enc.reset
  /-- An illegal word, or a command in a phase that does not accept it (R224, R225). -/
  | rejected (c : Cause) (hc : c = .illegalCmd ∨ c = .protocol) (hp : e.phase ≠ .fault) :
      EncMove w e (e.raise c).unit
  | clear (sym : Symbol) (hw : decode .enc w = some (.ctClr sym)) (hp : e.phase = .load) :
      EncMove w e (clearCode sym e).unit
  | append (sym : Symbol) (nm1 : BitVec 4) (code : BitVec 16)
      (hw : decode .enc w = some (.ctApp sym nm1 code)) (hp : e.phase = .load) :
      EncMove w e (appendCode sym nm1 code e).unit
  | symbol (sym : Symbol) (hw : decode .enc w = some (.encSym sym))
      (hp : e.phase = .load ∨ e.phase = .run) : EncMove w e (encodeSymbol sym e).unit
  | flush (hw : decode .enc w = some .encFlush) (hp : e.phase = .load ∨ e.phase = .run) :
      EncMove w e (flush e).unit

/-- The unit that a word on the DEC port leaves, by what the word is and the phase it comes in
(R140, R148). -/
inductive DecMove (w : Word) (d : Dec) : Dec → Prop where
  /-- Every word but `DEC_INIT` is ignored in FAULT (R233). -/
  | ignored (hp : d.phase = .fault) : DecMove w d d
  | init (hw : decode .dec w = some .decInit) : DecMove w d Dec.reset
  /-- An illegal word, or a command in a phase that does not accept it (R224, R225). -/
  | rejected (c : Cause) (hc : c = .illegalCmd ∨ c = .protocol) (hp : d.phase ≠ .fault) :
      DecMove w d (d.raise c).unit
  | leaf (idx : NodeIdx) (sym : Symbol) (hw : decode .dec w = some (.nmLeaf idx sym))
      (hp : d.phase = .load) : DecMove w d (loadNode idx (.leaf sym) d).unit
  | int (idx left right : NodeIdx) (hw : decode .dec w = some (.nmInt idx left right))
      (hp : d.phase = .load) : DecMove w d (loadNode idx (.int left right) d).unit
  | start (root : NodeIdx) (pad : Pad) (hw : decode .dec w = some (.decStart root pad))
      (hp : d.phase = .load) : DecMove w d (startReading root pad d).unit
  | byte (v : Byte) (hw : decode .dec w = some (.decByte v)) (hp : d.phase = .run) :
      DecMove w d (takeByte v d).unit
  | finish (hw : decode .dec w = some .decEnd) (hp : d.phase = .run) :
      DecMove w d (endReading d).unit

/-- A command of ENC other than its INIT moves ENC as its own rule does in a phase that accepts it
(R117). -/
theorem encCommand_move {w : Word} {a : Phase → Bool} {r : Enc → Effect Enc} {s t : State}
    (h : encCommand a r s = .next t)
    (hr : a s.enc.phase = true → EncMove w s.enc (r s.enc).unit) : EncMove w s.enc t.enc := by
  rw [encCommand_eq] at h
  obtain rfl := Host.Outcome.next.inj h
  rw [State.afterEnc_enc]
  split
  · next hp => exact .ignored hp
  · next hp =>
    split
    · next ha => exact hr ha
    · exact .rejected .protocol (.inr rfl) hp

/-- A command of DEC other than its INIT moves DEC as its own rule does in a phase that accepts it
(R148). -/
theorem decCommand_move {w : Word} {a : Phase → Bool} {r : Dec → Effect Dec} {s t : State}
    (h : decCommand a r s = .next t)
    (hr : a s.dec.phase = true → DecMove w s.dec (r s.dec).unit) : DecMove w s.dec t.dec := by
  rw [decCommand_eq] at h
  obtain rfl := Host.Outcome.next.inj h
  rw [State.afterDec_dec]
  split
  · next hp => exact .ignored hp
  · next hp =>
    split
    · next ha => exact hr ha
    · exact .rejected .protocol (.inr rfl) hp

theorem acceptWord_enc_move {w : Word} {s t : State} (h : acceptWord .enc w s = .next t) :
    EncMove w s.enc t.enc := by
  cases hw : decode .enc w with
  | none =>
    rw [acceptWord, hw, illegalCommand_enc] at h
    obtain rfl := Host.Outcome.next.inj h
    rw [State.afterEnc_enc]
    split
    · next hp => exact .ignored hp
    · next hp => exact .rejected .illegalCmd (.inl rfl) hp
  | some i =>
    have hport := decode_port hw
    rw [acceptWord_of_decode hw] at h
    cases i with
    | encInit =>
      obtain rfl := Host.Outcome.next.inj h
      exact .init hw
    | ctClr sym => exact encCommand_move h fun ha => .clear sym hw (whileLoading_iff.1 ha)
    | ctApp sym nm1 code =>
      exact encCommand_move h fun ha => .append sym nm1 code hw (whileLoading_iff.1 ha)
    | encSym sym => exact encCommand_move h fun ha => .symbol sym hw (untilFlushed_iff.1 ha)
    | encFlush => exact encCommand_move h fun ha => .flush hw (untilFlushed_iff.1 ha)
    | decInit | nmLeaf | nmInt | decStart | decByte | decEnd => simp [Instr.port] at hport

theorem acceptWord_dec_move {w : Word} {s t : State} (h : acceptWord .dec w s = .next t) :
    DecMove w s.dec t.dec := by
  cases hw : decode .dec w with
  | none =>
    rw [acceptWord, hw, illegalCommand_dec] at h
    obtain rfl := Host.Outcome.next.inj h
    rw [State.afterDec_dec]
    split
    · next hp => exact .ignored hp
    · next hp => exact .rejected .illegalCmd (.inl rfl) hp
  | some i =>
    have hport := decode_port hw
    rw [acceptWord_of_decode hw] at h
    cases i with
    | decInit =>
      obtain rfl := Host.Outcome.next.inj h
      exact .init hw
    | nmLeaf idx sym => exact decCommand_move h fun ha => .leaf idx sym hw (whileLoading_iff.1 ha)
    | nmInt idx left right =>
      exact decCommand_move h fun ha => .int idx left right hw (whileLoading_iff.1 ha)
    | decStart root pad =>
      exact decCommand_move h fun ha => .start root pad hw (whileLoading_iff.1 ha)
    | decByte v => exact decCommand_move h fun ha => .byte v hw (whileRunning_iff.1 ha)
    | decEnd => exact decCommand_move h fun ha => .finish hw (whileRunning_iff.1 ha)
    | encInit | ctClr | ctApp | encSym | encFlush => simp [Instr.port] at hport

/-- Everything a step can do to ENC: leave it, reset it, or move it by a word on its port (R9). -/
theorem step_enc_cases {s t : State} (h : step s = .next t) :
    t.enc = s.enc ∨
    (∃ c d rest, s.inputs = .reset c d :: rest ∧ t.enc = Enc.reset) ∨
    (∃ w x rest, s.inputs = x :: rest ∧ x.isWord .enc w ∧ EncMove w s.enc t.enc) := by
  rcases step_cases h with rfl | ⟨c, d, rest, hi, rfl⟩ | ⟨p, w, x, rest, hi, hx, hw⟩
  · exact .inl rfl
  · exact .inr (.inl ⟨c, d, rest, hi, rfl⟩)
  · cases p with
    | enc =>
      have hm := acceptWord_enc_move hw
      exact .inr (.inr ⟨w, x, rest, hi, hx, hm⟩)
    | dec =>
      have hside := acceptWord_side_of_ne (q := .enc) (by decide) hw
      exact .inl (State.side_enc_eq_iff.1 hside).1

/-- Everything a step can do to DEC: leave it, reset it, or move it by a word on its port (R9). -/
theorem step_dec_cases {s t : State} (h : step s = .next t) :
    t.dec = s.dec ∨
    (∃ c d rest, s.inputs = .reset c d :: rest ∧ t.dec = Dec.reset) ∨
    (∃ w x rest, s.inputs = x :: rest ∧ x.isWord .dec w ∧ DecMove w s.dec t.dec) := by
  rcases step_cases h with rfl | ⟨c, d, rest, hi, rfl⟩ | ⟨p, w, x, rest, hi, hx, hw⟩
  · exact .inl rfl
  · exact .inr (.inl ⟨c, d, rest, hi, rfl⟩)
  · cases p with
    | enc =>
      have hside := acceptWord_side_of_ne (q := .dec) (by decide) hw
      exact .inl (State.side_dec_eq_iff.1 hside).1
    | dec =>
      have hm := acceptWord_dec_move hw
      exact .inr (.inr ⟨w, x, rest, hi, hx, hm⟩)

/-! ### The invariant of ENC -/

theorem Enc.Inv.reset : Enc.reset.Inv where
  table := Memory.wf_nil _ _
  codes := fun sym => by simp
  free := fun j _ => by simp [Enc.reset]
  cause := by decide
  causes := .inl rfl
  flushed := fun _ => rfl
  unflushed := fun _ => rfl

/-- A fault with a cause of ENC keeps the invariant: the clauses about LOAD, RUN and DONE fall away
(R222, R223). -/
theorem Enc.Inv.raise {e : Enc} (h : e.Inv) {c : Cause}
    (hc : c = .illegalCmd ∨ c = .protocol ∨ c = .noCode ∨ c = .codeOverflow) :
    (e.raise c).unit.Inv where
  table := h.table
  codes := h.codes
  free := h.free
  cause := by rcases hc with rfl | rfl | rfl | rfl <;> simp
  causes := .inr hc
  flushed := by simp
  unflushed := by simp

theorem Enc.Inv.setCode {e : Enc} (h : e.Inv) (sym : Symbol) {c : Bits}
    (hc : c.length ≤ Config.lMax) : (e.setCode sym c).Inv where
  table := Enc.setCode_wf h.table sym c
  codes := fun y => by
    rw [Enc.code_setCode]
    split
    · exact hc
    · exact h.codes y
  free := h.free
  cause := h.cause
  causes := h.causes
  flushed := h.flushed
  unflushed := h.unflushed

theorem Enc.Inv.appendCode {e : Enc} (h : e.Inv) (sym : Symbol) (nm1 : BitVec 4)
    (code : BitVec 16) : (appendCode sym nm1 code e).unit.Inv := by
  unfold Machine.appendCode
  split
  · exact h.raise (.inr (.inr (.inr rfl)))
  · next hle => exact h.setCode sym (by simpa using hle)

theorem Enc.Inv.cause_none {e : Enc} (h : e.Inv) (hp : e.phase = .load ∨ e.phase = .run) :
    e.cause = .none := h.cause.2 (by rcases hp with hp | hp <;> simp [hp])

/-- ENC in RUN with any bits pushed keeps the invariant: pushing changes ACC and NB only and keeps the
zeros below the pending bits (R30, R111). -/
theorem Enc.Inv.pushBits {e : Enc} (h : e.Inv) (hp : e.phase = .load ∨ e.phase = .run)
    (bs : Bits) : (pushBits bs { e with phase := .run }).1.Inv := by
  have hfree := (pushBits_stream bs (e := { e with phase := .run }) h.free).2
  have hframe := pushBits_frame bs { e with phase := .run }
  have hcause := h.cause_none hp
  rw [hframe]
  exact
    { table := h.table
      codes := h.codes
      free := hfree
      cause := by simp [hcause]
      causes := h.causes
      flushed := by simp
      unflushed := fun _ => h.unflushed hp }

theorem Enc.Inv.encodeSymbol {e : Enc} (h : e.Inv) (hp : e.phase = .load ∨ e.phase = .run)
    (sym : Symbol) : (encodeSymbol sym e).unit.Inv := by
  unfold Machine.encodeSymbol
  split
  · exact h.raise (.inr (.inr (.inl rfl)))
  · exact h.pushBits hp _

theorem Enc.Inv.flush {e : Enc} (h : e.Inv) (hp : e.phase = .load ∨ e.phase = .run) :
    (flush e).unit.Inv where
  table := h.table
  codes := h.codes
  free := fun j _ => by simp [Machine.flush]
  cause := by simp [Machine.flush, h.cause_none hp]
  causes := h.causes
  flushed := fun _ => rfl
  unflushed := by simp [Machine.flush]

theorem Enc.Inv.move {w : Word} {e e' : Enc} (h : e.Inv) (hm : EncMove w e e') : e'.Inv := by
  cases hm with
  | ignored _ => exact h
  | init _ => exact Enc.Inv.reset
  | rejected c hc _ => exact h.raise (hc.imp_right .inl)
  | clear sym _ _ => exact h.setCode sym (Nat.zero_le _)
  | append sym nm1 code _ _ => exact h.appendCode sym nm1 code
  | symbol sym _ hp => exact h.encodeSymbol hp sym
  | flush _ hp => exact h.flush hp

/-! ### Paths in the node memory -/

theorem Dec.node_of_nm {d d' : Dec} (hnm : d'.nm = d.nm) (i : NodeIdx) : d'.node i = d.node i := by
  simp only [Dec.node, hnm]

/-- Where bits lead is decided by the node memory. -/
theorem Dec.leads_of_nm {d d' : Dec} (hnm : d'.nm = d.nm) {bs : Bits} {a b : NodeIdx}
    (h : d.leads a bs b) : d'.leads a bs b := by
  induction bs generalizing a with
  | nil => simpa only [Dec.leads, Dec.node_of_nm hnm] using h
  | cons x xs ih =>
    obtain ⟨l, r, ha, hrest⟩ := h
    exact ⟨l, r, (Dec.node_of_nm hnm a).trans ha, ih hrest⟩

/-- A path goes on to a child that is an internal node. -/
theorem Dec.leads_snoc {d : Dec} {bs : Bits} {a b l r l' r' : NodeIdx} {x : Bool}
    (h : d.leads a bs b) (hb : d.node b = .int l r)
    (hchild : d.node (childOf l r x) = .int l' r') : d.leads a (bs ++ [x]) (childOf l r x) := by
  induction bs generalizing a with
  | nil =>
    obtain ⟨rfl, -⟩ := h
    exact ⟨l, r, hb, rfl, l', r', hchild⟩
  | cons y ys ih =>
    obtain ⟨l₀, r₀, ha, hrest⟩ := h
    exact ⟨l₀, r₀, ha, ih hrest⟩

/-- The position is the one that the state of the decode state machine says: the root, or a node that
one or more bits lead to from the root (R44). -/
def Dec.Placed (d : Dec) : Prop :=
  match d.dstate with
  | .atRoot => d.cur = d.root
  | .descending => ∃ bs, bs ≠ [] ∧ d.leads d.root bs d.cur

theorem Dec.placed_iff {d : Dec} :
    d.Placed ↔ (d.dstate = .atRoot → d.cur = d.root) ∧
      (d.dstate = .descending → ∃ bs, bs ≠ [] ∧ d.leads d.root bs d.cur) := by
  unfold Dec.Placed
  cases d.dstate <;> simp

/-- `Placed` is about the node memory, the root and the position alone. -/
theorem Dec.Placed.of_eq {d d' : Dec} (h : d.Placed) (hnm : d'.nm = d.nm) (hroot : d'.root = d.root)
    (hcur : d'.cur = d.cur) (hstate : d'.dstate = d.dstate) : d'.Placed := by
  rw [Dec.placed_iff] at h ⊢
  rw [hroot, hcur, hstate]
  refine h.imp_right fun hdesc hs => ?_
  obtain ⟨bs, hne, hbs⟩ := hdesc hs
  exact ⟨bs, hne, Dec.leads_of_nm hnm hbs⟩

/-- From a placed position whose entry is internal, the bit that selects an internal child leads
there from the root. -/
theorem Dec.Placed.leads_child {d : Dec} (h : d.Placed) {b : Bool} {l r l' r' : NodeIdx}
    (hcur : d.node d.cur = .int l r) (hchild : d.node (childOf l r b) = .int l' r') :
    ∃ bs, bs ≠ [] ∧ d.leads d.root bs (childOf l r b) := by
  obtain ⟨hroot, hdesc⟩ := Dec.placed_iff.1 h
  cases hs : d.dstate with
  | atRoot => exact ⟨[b], by simp, l, r, hroot hs ▸ hcur, rfl, l', r', hchild⟩
  | descending =>
    obtain ⟨bs, -, hbs⟩ := hdesc hs
    exact ⟨bs ++ [b], by simp, Dec.leads_snoc hbs hcur hchild⟩

theorem Dec.Placed.stepBit {d u : Dec} {b : Bool} {o : List Byte} (h : d.Placed)
    (hu : stepBit b d = .ran u o) : u.Placed := by
  rcases stepBit_cases b d with ⟨hs, -⟩ | ⟨l, r, sym, -, -, hs⟩ | ⟨l, r, l', r', hcur, hchild, hs⟩
  · rw [hs] at hu
    exact absurd hu (by simp [Dec.raise])
  · obtain ⟨rfl, -⟩ := Effect.ran.inj (hs.symm.trans hu)
    exact rfl
  · obtain ⟨rfl, -⟩ := Effect.ran.inj (hs.symm.trans hu)
    obtain ⟨bs, hne, hbs⟩ := h.leads_child hcur hchild
    exact ⟨bs, hne, Dec.leads_of_nm (d := d) (by rfl) hbs⟩

/-- A stretch and the next ran when both did. -/
theorem Effect.andThen_eq_ran {σ : Type} {f : Effect σ} {g : σ → Effect σ} {u : σ} {o : List Byte}
    (h : f.andThen g = .ran u o) : ∃ v o₁ o₂, f = .ran v o₁ ∧ g v = .ran u o₂ := by
  cases f with
  | ran v o₁ =>
    cases hg : g v with
    | ran u' o₂ =>
      rw [Effect.andThen_ran, hg, Effect.after_ran] at h
      obtain ⟨rfl, -⟩ := Effect.ran.inj h
      exact ⟨v, o₁, o₂, rfl, hg⟩
    | raised u' o₂ => simp [hg] at h
  | raised v o₁ => simp at h

theorem Dec.Placed.stepBits {d u : Dec} {bs : Bits} {o : List Byte} (h : d.Placed)
    (hu : stepBits bs d = .ran u o) : u.Placed := by
  induction bs generalizing d o with
  | nil =>
    obtain ⟨rfl, -⟩ := Effect.ran.inj hu
    exact h
  | cons b bs ih =>
    obtain ⟨v, o₁, o₂, hv, hrest⟩ := Effect.andThen_eq_ran hu
    exact ih (h.stepBit hv) hrest

/-! ### The invariant of DEC -/

theorem Dec.Inv.reset : Dec.reset.Inv where
  nodes := Memory.wf_nil _ _
  cause := by decide
  causes := .inl rfl
  unstarted := fun _ => ⟨rfl, rfl, rfl, rfl⟩
  atRoot := fun _ _ => rfl
  descending := fun h => absurd h (by decide)
  unheld := fun h => absurd h (by decide)
  resting := fun _ => ⟨rfl, rfl⟩

/-- In FAULT the invariant is about the node memory and the cause alone (R222, R223). -/
theorem Dec.Inv.of_fault {d : Dec}
    (hnm : Memory.wf Config.nNode NodeEntry.invalid d.nm = true) (hp : d.phase = .fault)
    (hc : d.cause = .illegalCmd ∨ d.cause = .protocol ∨ d.cause = .treeInvalid ∨
      d.cause = .truncated ∨ d.cause = .padInvalid) : d.Inv where
  nodes := hnm
  cause := by rcases hc with hc | hc | hc | hc | hc <;> simp [hc, hp]
  causes := .inr hc
  unstarted := by simp [hp]
  atRoot := by simp [hp]
  descending := by simp [hp]
  unheld := by simp [hp]
  resting := by simp [hp]

theorem Dec.Inv.cause_none {d : Dec} (h : d.Inv) (hp : d.phase ≠ .fault) : d.cause = .none :=
  h.cause.2 hp

/-- What the invariant says in RUN, but for the rule about the held byte (R37, R44). -/
structure Dec.Running (d : Dec) : Prop where
  nodes : Memory.wf Config.nNode NodeEntry.invalid d.nm = true
  phase : d.phase = .run
  cause : d.cause = .none
  placed : d.Placed

theorem Dec.Inv.running {d : Dec} (h : d.Inv) (hp : d.phase = .run) : d.Running where
  nodes := h.nodes
  phase := hp
  cause := h.cause_none (by simp [hp])
  placed := Dec.placed_iff.2 ⟨h.atRoot (by simp [hp]), h.descending hp⟩

theorem Dec.Running.inv {d : Dec} (h : d.Running)
    (hheld : d.holdv = false → d.dstate = .atRoot) : d.Inv where
  nodes := h.nodes
  cause := by simp [h.phase, h.cause]
  causes := .inl h.cause
  unstarted := by simp [h.phase]
  atRoot := fun _ => (Dec.placed_iff.1 h.placed).1
  descending := fun _ => (Dec.placed_iff.1 h.placed).2
  unheld := fun _ => hheld
  resting := by simp [h.phase]

/-- Which byte is held does not matter to `Running`. -/
theorem Dec.Running.setHold {d : Dec} (h : d.Running) (v : Byte) (held : Bool) :
    Dec.Running { d with hold := v, holdv := held } where
  nodes := h.nodes
  phase := h.phase
  cause := h.cause
  placed := h.placed.of_eq rfl rfl rfl rfl

theorem Dec.Inv.setNode {d : Dec} (h : d.Inv) (hp : d.phase = .load) (idx : NodeIdx)
    (n : NodeEntry) : (d.setNode idx n).Inv where
  nodes := Dec.setNode_wf h.nodes idx n
  cause := h.cause
  causes := h.causes
  unstarted := h.unstarted
  atRoot := h.atRoot
  descending := by simp [hp]
  unheld := h.unheld
  resting := h.resting

theorem Dec.Inv.startReading {d : Dec} (h : d.Inv) (hp : d.phase = .load) (root : NodeIdx)
    (pad : Pad) : (startReading root pad d).unit.Inv :=
  Dec.Running.inv ⟨h.nodes, rfl, h.cause_none (by simp [hp]), rfl⟩ fun _ => rfl

/-- A walk in RUN goes on in RUN, or ends in a fault that keeps the invariant (R150, R222). -/
theorem Dec.Running.consumeBits {d : Dec} (h : d.Running) (v : Byte) (k : Nat) :
    (∃ u o, consumeBits v k d = .ran u o ∧ u.Running) ∨
    (∃ u o, consumeBits v k d = .raised u o ∧ u.Inv) := by
  unfold Machine.consumeBits
  cases hs : stepBits ((byteBits v).take k) d with
  | ran u o =>
    refine .inl ⟨u, o, rfl, ?_, ?_, ?_, h.placed.stepBits hs⟩ <;> rw [stepBits_ran_eq hs]
    · exact h.nodes
    · exact h.phase
    · exact h.cause
  | raised u o =>
    refine .inr ⟨u, o, rfl, ?_⟩
    rw [stepBits_raised_eq hs]
    exact Dec.Inv.of_fault h.nodes rfl (.inr (.inr (.inl rfl)))

theorem Dec.Running.takeByte {d : Dec} (h : d.Running) (v : Byte) : (takeByte v d).unit.Inv := by
  have hold {u : Dec} (hu : u.Running) : Dec.Inv { u with hold := v, holdv := true } :=
    (hu.setHold v true).inv (by simp)
  unfold Machine.takeByte
  split
  · rcases h.consumeBits d.hold 8 with ⟨u, o, hc, hu⟩ | ⟨u, o, hc, hu⟩
    · rw [hc, Effect.andThen_ran, Effect.unit_after]
      exact hold hu
    · rw [hc, Effect.andThen_raised]
      exact hu
  · exact hold h

/-- The first half of `DEC_END` leaves nothing held in RUN, or ends in a fault that keeps the
invariant (R147). -/
theorem Dec.Running.takeLastByte {d : Dec} (h : d.Running) :
    (∃ u o, takeLastByte d = .ran u o ∧ u.Running ∧ u.holdv = false) ∨
    (∃ u o, takeLastByte d = .raised u o ∧ u.Inv) := by
  unfold Machine.takeLastByte
  split
  · rcases h.consumeBits d.hold (dataBits d.padr) with ⟨u, o, hc, hu⟩ | ⟨u, o, hc, hu⟩
    · exact .inl ⟨{ u with holdv := false }, o, by simp [hc], hu.setHold u.hold false, rfl⟩
    · exact .inr ⟨u, o, by simp [hc], hu⟩
  · next hv =>
    split
    · exact .inr ⟨_, [], rfl,
        Dec.Inv.of_fault h.nodes rfl (.inr (.inr (.inr (.inr rfl))))⟩
    · exact .inl ⟨d, [], rfl, h, by simpa using hv⟩

theorem Dec.Running.endAtRoot {d : Dec} (h : d.Running) (hheld : d.holdv = false) :
    (endAtRoot d).unit.Inv := by
  unfold Machine.endAtRoot
  split
  · exact Dec.Inv.of_fault h.nodes rfl (.inr (.inr (.inr (.inl rfl))))
  · next hroot =>
    replace hroot : d.dstate = .atRoot := Decidable.not_not.1 hroot
    exact
      { nodes := h.nodes
        cause := by simp [h.cause]
        causes := .inl h.cause
        unstarted := by simp
        atRoot := fun _ => (Dec.placed_iff.1 h.placed).1
        descending := by simp
        unheld := by simp
        resting := fun _ => ⟨hroot, hheld⟩ }

theorem Dec.Running.endReading {d : Dec} (h : d.Running) : (endReading d).unit.Inv := by
  unfold Machine.endReading
  rcases h.takeLastByte with ⟨u, o, hl, hu, hheld⟩ | ⟨u, o, hl, hu⟩
  · rw [hl, Effect.andThen_ran, Effect.unit_after]
    exact hu.endAtRoot hheld
  · rw [hl, Effect.andThen_raised]
    exact hu

theorem Dec.Inv.move {w : Word} {d d' : Dec} (h : d.Inv) (hm : DecMove w d d') : d'.Inv := by
  cases hm with
  | ignored _ => exact h
  | init _ => exact Dec.Inv.reset
  | rejected c hc _ => exact Dec.Inv.of_fault h.nodes rfl (hc.imp_right .inl)
  | leaf idx sym _ hp => exact h.setNode hp idx _
  | int idx left right _ hp => exact h.setNode hp idx _
  | start root pad _ hp => exact h.startReading hp root pad
  | byte v _ hp => exact (h.running hp).takeByte v
  | finish _ hp => exact (h.running hp).endReading

/-! ### What the moves do to the tables -/

theorem pushBits_ct (bs : Bits) (e : Enc) : (pushBits bs e).1.ct = e.ct := by
  rw [pushBits_frame]

theorem encodeSymbol_ct (sym : Symbol) (e : Enc) : (encodeSymbol sym e).unit.ct = e.ct := by
  unfold encodeSymbol
  split
  · rfl
  · exact pushBits_ct _ _

theorem consumeBits_nm (v : Byte) (k : Nat) (d : Dec) : (consumeBits v k d).unit.nm = d.nm := by
  rw [consumeBits, stepBits_frame]

/-- A stretch and then the next leave the node memory when each does. -/
theorem andThen_nm {f : Effect Dec} {g : Dec → Effect Dec} {d : Dec} (hf : f.unit.nm = d.nm)
    (hg : ∀ u, (g u).unit.nm = u.nm) : (f.andThen g).unit.nm = d.nm := by
  cases f with
  | ran u o => rw [Effect.andThen_ran, Effect.unit_after, hg, ← hf, Effect.unit_ran]
  | raised u o => exact hf

theorem takeByte_nm (v : Byte) (d : Dec) : (takeByte v d).unit.nm = d.nm := by
  refine andThen_nm ?_ fun _ => rfl
  split
  · exact consumeBits_nm _ _ _
  · rfl

theorem takeLastByte_nm (d : Dec) : (takeLastByte d).unit.nm = d.nm := by
  unfold takeLastByte
  split
  · exact andThen_nm (consumeBits_nm _ _ _) fun _ => rfl
  · split <;> rfl

theorem endAtRoot_nm (d : Dec) : (endAtRoot d).unit.nm = d.nm := by
  unfold endAtRoot
  split <;> rfl

theorem endReading_nm (d : Dec) : (endReading d).unit.nm = d.nm :=
  andThen_nm (takeLastByte_nm d) endAtRoot_nm

/-- The code table after a word: as it was, or emptied by `ENC_INIT`, or written in LOAD by one of the
two commands that load it (R50). -/
theorem EncMove.table {w : Word} {e e' : Enc} (hm : EncMove w e e') :
    e'.ct = e.ct ∨ (decode .enc w = some .encInit ∧ e' = Enc.reset) ∨
    (e.phase = .load ∧ ((∃ sym, decode .enc w = some (.ctClr sym)) ∨
      ∃ sym nm1 code, decode .enc w = some (.ctApp sym nm1 code))) := by
  cases hm with
  | ignored _ => exact .inl rfl
  | init hw => exact .inr (.inl ⟨hw, rfl⟩)
  | rejected _ _ _ => exact .inl rfl
  | clear sym hw hp => exact .inr (.inr ⟨hp, .inl ⟨sym, hw⟩⟩)
  | append sym nm1 code hw hp => exact .inr (.inr ⟨hp, .inr ⟨sym, nm1, code, hw⟩⟩)
  | symbol sym _ _ => exact .inl (encodeSymbol_ct sym e)
  | flush _ _ => exact .inl rfl

/-- The node memory after a word: as it was, or emptied by `DEC_INIT`, or written in LOAD by one of the
two commands that load it (R50). -/
theorem DecMove.table {w : Word} {d d' : Dec} (hm : DecMove w d d') :
    d'.nm = d.nm ∨ (decode .dec w = some .decInit ∧ d' = Dec.reset) ∨
    (d.phase = .load ∧ ((∃ idx sym, decode .dec w = some (.nmLeaf idx sym)) ∨
      ∃ idx left right, decode .dec w = some (.nmInt idx left right))) := by
  cases hm with
  | ignored _ => exact .inl rfl
  | init hw => exact .inr (.inl ⟨hw, rfl⟩)
  | rejected _ _ _ => exact .inl rfl
  | leaf idx sym hw hp => exact .inr (.inr ⟨hp, .inl ⟨idx, sym, hw⟩⟩)
  | int idx left right hw hp => exact .inr (.inr ⟨hp, .inr ⟨idx, left, right, hw⟩⟩)
  | start _ _ _ _ => exact .inl rfl
  | byte v _ _ => exact .inl (takeByte_nm v d)
  | finish _ _ => exact .inl (endReading_nm d)

/-! ### The obligations about the invariant and the tables -/

/-- Settles O38: what a step does to a unit is nothing, a reset or a move by a word, and each keeps the
unit's part of the invariant. -/
theorem everyStepKeepsTheInvariant : Obligations.EveryStepKeepsTheInvariant := by
  intro s t hs h
  constructor
  · rcases step_enc_cases h with he | ⟨_, _, _, _, he⟩ | ⟨_, _, _, _, _, hm⟩
    · exact he ▸ hs.enc
    · exact he ▸ Enc.Inv.reset
    · exact hs.enc.move hm
  · rcases step_dec_cases h with hd | ⟨_, _, _, _, hd⟩ | ⟨_, _, _, _, _, hm⟩
    · exact hd ▸ hs.dec
    · exact hd ▸ Dec.Inv.reset
    · exact hs.dec.move hm

/-- Settles O42: outside LOAD no loading command is accepted, so only the unit's INIT and reset reach
its table. -/
theorem tablesAreFrozenAfterLoading : Obligations.TablesAreFrozenAfterLoading := by
  intro s t h
  constructor
  · intro hload
    rcases step_enc_cases h with he | ⟨_, _, _, _, he⟩ | ⟨_, _, _, _, _, hm⟩
    · exact .inl (congrArg Enc.ct he)
    · exact .inr he
    · rcases hm.table with hct | ⟨-, he⟩ | ⟨hp, -⟩
      · exact .inl hct
      · exact .inr he
      · exact absurd hp hload
  · intro hload
    rcases step_dec_cases h with hd | ⟨_, _, _, _, hd⟩ | ⟨_, _, _, _, _, hm⟩
    · exact .inl (congrArg Dec.nm hd)
    · exact .inr hd
    · rcases hm.table with hnm | ⟨-, hd⟩ | ⟨hp, -⟩
      · exact .inl hnm
      · exact .inr hd
      · exact absurd hp hload

/-- Settles O43: a changed table shows a reset, or a word that is the unit's INIT or loads the
table. -/
theorem tablesAreWrittenOnlyByTheirCommands : Obligations.TablesAreWrittenOnlyByTheirCommands := by
  intro s t h
  constructor
  · intro hct
    rcases step_enc_cases h with he | ⟨c, d, rest, hi, -⟩ | ⟨w, x, rest, hi, hx, hm⟩
    · exact absurd (congrArg Enc.ct he) hct
    · exact ⟨_, rest, hi, .inl ⟨c, d, rfl⟩⟩
    · refine ⟨x, rest, hi, .inr ?_⟩
      rcases hm.table with h' | ⟨hw, -⟩ | ⟨-, ⟨sym, hw⟩ | ⟨sym, nm1, code, hw⟩⟩
      · exact absurd h' hct
      · exact ⟨w, _, hx, hw, .inl rfl⟩
      · exact ⟨w, _, hx, hw, .inr (.inl ⟨sym, rfl⟩)⟩
      · exact ⟨w, _, hx, hw, .inr (.inr ⟨sym, nm1, code, rfl⟩)⟩
  · intro hnm
    rcases step_dec_cases h with hd | ⟨c, d, rest, hi, -⟩ | ⟨w, x, rest, hi, hx, hm⟩
    · exact absurd (congrArg Dec.nm hd) hnm
    · exact ⟨_, rest, hi, .inl ⟨c, d, rfl⟩⟩
    · refine ⟨x, rest, hi, .inr ?_⟩
      rcases hm.table with h' | ⟨hw, -⟩ | ⟨-, ⟨idx, sym, hw⟩ | ⟨idx, left, right, hw⟩⟩
      · exact absurd h' hnm
      · exact ⟨w, _, hx, hw, .inl rfl⟩
      · exact ⟨w, _, hx, hw, .inr (.inl ⟨idx, sym, rfl⟩)⟩
      · exact ⟨w, _, hx, hw, .inr (.inr ⟨idx, left, right, rfl⟩)⟩

/-- Settles O37: both units' reset values meet the invariant. -/
theorem resetMeetsTheInvariant : Obligations.ResetMeetsTheInvariant :=
  ⟨Enc.Inv.reset, Dec.Inv.reset⟩

/-! ### The state after reset and INIT -/

theorem encStatus_reset : encStatus Enc.reset = 0x00000000 := by decide

theorem decStatus_reset : decStatus Dec.reset = 0x00000000 := by decide

/-- Settles O14: reset and the unit's INIT leave the unit in its reset state, whose fields are the
table of R53. -/
theorem resetAndInitLeaveTheTabledValues : Obligations.ResetAndInitLeaveTheTabledValues := by
  intro s t rest
  constructor
  · intro h
    have henc : t.enc = Enc.reset := by
      rcases h with rfl | h | h
      · rfl
      · exact Host.Outcome.next.inj h ▸ rfl
      · exact Host.Outcome.next.inj h ▸ rfl
    rw [henc]
    exact ⟨rfl, rfl, Enc.code_reset, rfl, rfl, rfl, encStatus_reset⟩
  · intro h
    have hdec : t.dec = Dec.reset := by
      rcases h with rfl | h | h
      · rfl
      · exact Host.Outcome.next.inj h ▸ rfl
      · exact Host.Outcome.next.inj h ▸ rfl
    rw [hdec]
    exact ⟨rfl, rfl, Dec.node_reset, rfl, rfl, rfl, rfl, rfl, rfl, decStatus_reset⟩

/-! ### The status words

In the proofs below the widths of the parts stay sums (`-Nat.reduceAdd`), so that the library's lemmas
about a field of `x ++ y` apply. -/

/-- A field of `ENC_STATUS` is a field of the parts put together, at the sum of their widths (R32). -/
theorem extractLsb'_encStatus (e : Enc) (start len : Nat) :
    (encStatus e).extractLsb' start len =
      BitVec.extractLsb' (n := 8 + 8 + 1 + 3 + 1 + 3 + 4 + 2 + 2) start len
        (0#8 ++ e.acc ++ 0#1 ++ e.nb ++ 0#1 ++ e.pad ++ e.cause.code ++ 0#2 ++ e.phase.code) := rfl

/-- A field of `DEC_STATUS` is a field of the parts put together, at the sum of their widths (R46). -/
theorem extractLsb'_decStatus (d : Dec) (start len : Nat) :
    (decStatus d).extractLsb' start len =
      BitVec.extractLsb' (n := 8 + 3 + 9 + 1 + 3 + 4 + 1 + 1 + 2) start len
        (d.hold ++ 0#3 ++ d.cur ++ 0#1 ++ d.padr ++ d.cause.code ++ BitVec.ofBool d.holdv ++
          d.dstate.code ++ d.phase.code) := rfl

theorem encStatus_phase (e : Enc) : (encStatus e).extractLsb' 0 2 = e.phase.code :=
  BitVec.extractLsb'_append_eq_right

theorem encStatus_cause (e : Enc) : (encStatus e).extractLsb' 4 4 = e.cause.code := by
  simp [-Nat.reduceAdd, extractLsb'_encStatus, BitVec.extractLsb'_append_eq_of_le,
    BitVec.extractLsb'_append_eq_of_add_le]

theorem decStatus_phase (d : Dec) : (decStatus d).extractLsb' 0 2 = d.phase.code :=
  BitVec.extractLsb'_append_eq_right

theorem decStatus_dstate (d : Dec) : (decStatus d).extractLsb' 2 1 = d.dstate.code := by
  simp [-Nat.reduceAdd, extractLsb'_decStatus, BitVec.extractLsb'_append_eq_of_le,
    BitVec.extractLsb'_append_eq_of_add_le]

theorem decStatus_holdv (d : Dec) : (decStatus d).extractLsb' 3 1 = BitVec.ofBool d.holdv := by
  simp [-Nat.reduceAdd, extractLsb'_decStatus, BitVec.extractLsb'_append_eq_of_le,
    BitVec.extractLsb'_append_eq_of_add_le]

theorem decStatus_cause (d : Dec) : (decStatus d).extractLsb' 4 4 = d.cause.code := by
  simp [-Nat.reduceAdd, extractLsb'_decStatus, BitVec.extractLsb'_append_eq_of_le,
    BitVec.extractLsb'_append_eq_of_add_le]

/-- Settles O34: each field stands at the sum of the widths of the parts below it. -/
theorem encStatusLayout : Obligations.EncStatusLayout := by
  intro e
  rw [encStatus_phase, encStatus_cause]
  refine ⟨by cases e.phase <;> rfl, ?_, by cases e.cause <;> rfl, ?_⟩ <;>
    simp [-Nat.reduceAdd, extractLsb'_encStatus, BitVec.extractLsb'_append_eq_of_le,
      BitVec.extractLsb'_append_eq_of_add_le]

/-- Settles O35: each field stands at the sum of the widths of the parts below it. -/
theorem decStatusLayout : Obligations.DecStatusLayout := by
  intro d
  rw [decStatus_phase, decStatus_dstate, decStatus_holdv, decStatus_cause]
  refine ⟨by cases d.phase <;> rfl, by cases d.dstate <;> rfl, by cases d.holdv <;> rfl,
    by cases d.cause <;> rfl, ?_⟩
  simp [-Nat.reduceAdd, extractLsb'_decStatus, BitVec.extractLsb'_append_eq_of_le,
    BitVec.extractLsb'_append_eq_of_add_le]

theorem Phase.code_eq_three_iff (ph : Phase) : ph.code = 3 ↔ ph = .fault := by
  cases ph <;> decide

theorem Cause.code_eq_zero_iff (c : Cause) : c.code = 0 ↔ c = .none := by
  cases c <;> decide

/-- Settles O36: the fields show the phase and the cause by their codes, and the invariant says which
causes a unit has and that the cause is NONE exactly outside FAULT. -/
theorem statusShowsACauseOfItsUnit : Obligations.StatusShowsACauseOfItsUnit := by
  intro s h
  rw [encStatus_phase, encStatus_cause, decStatus_phase, decStatus_cause]
  simp only [ne_eq, Phase.code_eq_three_iff, Cause.code_eq_zero_iff]
  refine ⟨h.enc.cause, ?_, h.dec.cause, ?_⟩
  · rcases h.enc.causes with hc | hc | hc | hc | hc <;> rw [hc] <;> decide
  · rcases h.dec.causes with hc | hc | hc | hc | hc | hc <;> rw [hc] <;> decide

/-! ### The physical layouts -/

@[simp] theorem codeOfLayout_length (len : BitVec 8) (bits : BitVec 255) :
    (codeOfLayout len bits).length = len.toNat := by simp [codeOfLayout]

theorem codeOfLayout_getElem (len : BitVec 8) (bits : BitVec 255) (j : Nat)
    (hj : j < (codeOfLayout len bits).length) :
    (codeOfLayout len bits)[j] = bits.getLsbD (len.toNat - 1 - j) := by simp [codeOfLayout]

theorem appendedBits_getElem (nm1 : BitVec 4) (code : BitVec 16) (j : Nat)
    (hj : j < (appendedBits nm1 code).length) :
    (appendedBits nm1 code)[j] = code.getLsbD (nm1.toNat - j) := by
  simp [appendedBits, appendCount]

/-- The bits of an entry that a code of `n` bits was shifted and or-ed into: the code below `n`, the
old bits above (R114). -/
theorem getLsbD_shiftLeft_or_low (bits : BitVec 255) (code : BitVec 16) (n i : Nat) (hi : i < 255) :
    (bits <<< n ||| (code.extractLsb' 0 n).setWidth 255).getLsbD i =
      if i < n then code.getLsbD i else bits.getLsbD (i - n) := by
  rw [BitVec.getLsbD_or, BitVec.getLsbD_shiftLeft, BitVec.getLsbD_setWidth,
    BitVec.getLsbD_extractLsb', Nat.zero_add]
  by_cases hin : i < n
  · simp [hin, hi]
  · rw [if_neg hin]
    simp only [hi, hin, decide_true, decide_false, Bool.not_false, Bool.true_and, Bool.false_and,
      Bool.or_false, Bool.and_false]

theorem toNat_len_add {len : BitVec 8} {n : Nat} (h : len.toNat + n ≤ 255) :
    (len + BitVec.ofNat 8 n).toNat = len.toNat + n := by
  rw [BitVec.toNat_add, BitVec.toNat_ofNat]
  omega

theorem codeOfLayout_append (len : BitVec 8) (bits : BitVec 255) (nm1 : BitVec 4)
    (code : BitVec 16) (h : len.toNat + (nm1.toNat + 1) ≤ 255) :
    codeOfLayout (len + BitVec.ofNat 8 (nm1.toNat + 1))
        (bits <<< (nm1.toNat + 1) ||| (code.extractLsb' 0 (nm1.toNat + 1)).setWidth 255) =
      codeOfLayout len bits ++ appendedBits nm1 code := by
  have hlen := toNat_len_add h
  apply List.ext_getElem
  · simp [hlen, appendCount]
  intro j hj _
  rw [codeOfLayout_length, hlen] at hj
  rw [codeOfLayout_getElem, hlen, getLsbD_shiftLeft_or_low _ _ _ _ (by omega)]
  by_cases hold : j < len.toNat
  · rw [List.getElem_append_left (by simpa using hold), codeOfLayout_getElem, if_neg (by omega)]
    congr 1
    omega
  · rw [List.getElem_append_right (by simpa using hold), appendedBits_getElem, if_pos (by omega),
      codeOfLayout_length]
    congr 1
    omega

/-- Two layouts that agree below the length stand for one code (R29). -/
theorem codeOfLayout_congr (len : BitVec 8) {bits bits' : BitVec 255}
    (h : ∀ j, j < len.toNat → bits.getLsbD j = bits'.getLsbD j) :
    codeOfLayout len bits = codeOfLayout len bits' := by
  refine List.map_congr_left fun j hj => h _ ?_
  have := List.mem_range.1 hj
  omega

/-- Settles O8: the appended bits lie below the shifted old ones, only bits below the length are read,
and a node's fields are the parts of its payload. -/
theorem physicalLayoutsStandForTheEntries : Obligations.PhysicalLayoutsStandForTheEntries := by
  refine ⟨codeOfLayout_append, fun len _ _ => codeOfLayout_congr len, fun sym high => ?_,
    fun left right => ?_, fun _ _ => rfl⟩
  · exact congrArg NodeEntry.leaf BitVec.extractLsb'_append_eq_right
  · exact congrArg₂ NodeEntry.int BitVec.extractLsb'_append_eq_left
      BitVec.extractLsb'_append_eq_right

end Sys2Proof.Machine

/-! PROOFS of the encoding statements (spec/30_encoding.md): the formats of command words and the
masks of the opcode map, that decoding and encoding are inverse, illegal words, the assembler lines,
and what `CT_SET` loads. -/

namespace Sys2Proof.Machine

/-! ### Words cut into fields -/

/-- A stretch of a word is `x ++ y` when its two parts are `x` and `y`. -/
theorem extractLsb'_eq_append_iff {n a b start : Nat} {w : BitVec n} {x : BitVec a}
    {y : BitVec b} : w.extractLsb' start (a + b) = x ++ y ↔
      w.extractLsb' (start + b) a = x ∧ w.extractLsb' start b = y := by
  rw [← BitVec.extractLsb'_append_extractLsb'_eq_extractLsb' rfl]
  constructor
  · intro h
    have hx := congrArg (BitVec.extractLsb' b a) h
    have hy := congrArg (BitVec.extractLsb' 0 b) h
    rw [BitVec.extractLsb'_append_eq_left, BitVec.extractLsb'_append_eq_left] at hx
    rw [BitVec.extractLsb'_append_eq_right, BitVec.extractLsb'_append_eq_right] at hy
    exact ⟨hx, hy⟩
  · rintro ⟨rfl, rfl⟩
    rfl

theorem eq_append_iff {a b : Nat} {w : BitVec (a + b)} {x : BitVec a} {y : BitVec b} :
    w = x ++ y ↔ w.extractLsb' b a = x ∧ w.extractLsb' 0 b = y := by
  have h := extractLsb'_eq_append_iff (start := 0) (w := w) (x := x) (y := y)
  rwa [BitVec.extractLsb'_eq_self, Nat.zero_add] at h

/-- A range that the mask keeps whole. -/
theorem extractLsb'_and_of_kept {w mask : Word} {lo len : Nat}
    (h : mask.extractLsb' lo len = BitVec.allOnes len) :
    (w &&& mask).extractLsb' lo len = w.extractLsb' lo len := by
  rw [BitVec.extractLsb'_and, h, BitVec.and_allOnes]

/-- A range that the mask drops. -/
theorem extractLsb'_and_of_dropped {w mask : Word} {lo len : Nat}
    (h : mask.extractLsb' lo len = 0) : (w &&& mask).extractLsb' lo len = 0 := by
  rw [BitVec.extractLsb'_and, h]
  exact BitVec.and_zero

/-! ### The formats

The seven formats of R82 as words with zero reserved bits; B has the picture of S. For each: its
fields, and what a word that agrees with a row on the row's mask looks like (R84). -/

/-- Format Z of R82. -/
def formatZ (op : BitVec 4) : Word := op ++ 0#28
/-- Formats S and B of R82. -/
def formatS (op : BitVec 4) (x : BitVec 8) : Word := op ++ 0#20 ++ x
/-- Format A of R82. -/
def formatA (op : BitVec 4) (sym : Symbol) (nm1 : BitVec 4) (code : BitVec 16) : Word :=
  op ++ sym ++ nm1 ++ code
/-- Format L of R82. -/
def formatL (op : BitVec 4) (idx : NodeIdx) (sym : Symbol) : Word := op ++ 0#11 ++ idx ++ sym
/-- Format N of R82. -/
def formatN (op : BitVec 4) (idx left right : NodeIdx) : Word :=
  op ++ 0#1 ++ idx ++ left ++ right
/-- Format T of R82. -/
def formatT (op : BitVec 4) (root : NodeIdx) (pad : Pad) : Word :=
  op ++ 0#11 ++ root ++ 0#5 ++ pad

section

variable {w : Word} {op : BitVec 4}

theorem eq_formatZ_iff : w = formatZ op ↔ w.extractLsb' 28 4 = op ∧ w.extractLsb' 0 28 = 0 :=
  eq_append_iff (w := w) (x := op) (y := 0#28)

theorem eq_formatS_iff {x : BitVec 8} : w = formatS op x ↔
    w.extractLsb' 28 4 = op ∧ w.extractLsb' 8 20 = 0 ∧ w.extractLsb' 0 8 = x := by
  have h := eq_append_iff (w := w) (x := op ++ 0#20) (y := x)
  simp only [extractLsb'_eq_append_iff, and_assoc] at h
  exact h

theorem eq_formatA_iff {sym : Symbol} {nm1 : BitVec 4} {code : BitVec 16} :
    w = formatA op sym nm1 code ↔ w.extractLsb' 28 4 = op ∧
      w.extractLsb' 20 8 = sym ∧ w.extractLsb' 16 4 = nm1 ∧ w.extractLsb' 0 16 = code := by
  have h := eq_append_iff (w := w) (x := op ++ sym ++ nm1) (y := code)
  simp only [extractLsb'_eq_append_iff, and_assoc] at h
  exact h

theorem eq_formatL_iff {idx : NodeIdx} {sym : Symbol} : w = formatL op idx sym ↔
    w.extractLsb' 28 4 = op ∧ w.extractLsb' 17 11 = 0 ∧ w.extractLsb' 8 9 = idx ∧
      w.extractLsb' 0 8 = sym := by
  have h := eq_append_iff (w := w) (x := op ++ 0#11 ++ idx) (y := sym)
  simp only [extractLsb'_eq_append_iff, and_assoc] at h
  exact h

theorem eq_formatN_iff {idx left right : NodeIdx} : w = formatN op idx left right ↔
    w.extractLsb' 28 4 = op ∧ w.extractLsb' 27 1 = 0 ∧ w.extractLsb' 18 9 = idx ∧
      w.extractLsb' 9 9 = left ∧ w.extractLsb' 0 9 = right := by
  have h := eq_append_iff (w := w) (x := op ++ 0#1 ++ idx ++ left) (y := right)
  simp only [extractLsb'_eq_append_iff, and_assoc] at h
  exact h

theorem eq_formatT_iff {root : NodeIdx} {pad : Pad} : w = formatT op root pad ↔
    w.extractLsb' 28 4 = op ∧ w.extractLsb' 17 11 = 0 ∧ w.extractLsb' 8 9 = root ∧
      w.extractLsb' 3 5 = 0 ∧ w.extractLsb' 0 3 = pad := by
  have h := eq_append_iff (w := w) (x := op ++ 0#11 ++ root ++ 0#5) (y := pad)
  simp only [extractLsb'_eq_append_iff, and_assoc] at h
  exact h

theorem and_maskZ_eq_iff : w &&& 0xFFFFFFFF = formatZ op ↔
    w.extractLsb' 28 4 = op ∧ w.extractLsb' 0 28 = 0 := by
  simp (disch := decide) only [eq_formatZ_iff, extractLsb'_and_of_kept]

theorem and_maskS_eq_iff : w &&& 0xFFFFFF00 = formatS op 0 ↔
    w.extractLsb' 28 4 = op ∧ w.extractLsb' 8 20 = 0 := by
  simp (disch := decide) only [eq_formatS_iff, extractLsb'_and_of_kept,
    extractLsb'_and_of_dropped, and_true]

theorem and_maskA_eq_iff : w &&& 0xF0000000 = formatA op 0 0 0 ↔ w.extractLsb' 28 4 = op := by
  simp (disch := decide) only [eq_formatA_iff, extractLsb'_and_of_kept,
    extractLsb'_and_of_dropped, and_true]

theorem and_maskL_eq_iff : w &&& 0xFFFE0000 = formatL op 0 0 ↔
    w.extractLsb' 28 4 = op ∧ w.extractLsb' 17 11 = 0 := by
  simp (disch := decide) only [eq_formatL_iff, extractLsb'_and_of_kept,
    extractLsb'_and_of_dropped, and_true]

theorem and_maskN_eq_iff : w &&& 0xF8000000 = formatN op 0 0 0 ↔
    w.extractLsb' 28 4 = op ∧ w.extractLsb' 27 1 = 0 := by
  simp (disch := decide) only [eq_formatN_iff, extractLsb'_and_of_kept,
    extractLsb'_and_of_dropped, and_true]

theorem and_maskT_eq_iff : w &&& 0xFFFE00F8 = formatT op 0 0 ↔
    w.extractLsb' 28 4 = op ∧ w.extractLsb' 17 11 = 0 ∧ w.extractLsb' 3 5 = 0 := by
  simp (disch := decide) only [eq_formatT_iff, extractLsb'_and_of_kept,
    extractLsb'_and_of_dropped, and_true, true_and]

theorem eq_formatZ_iff_masked : w = formatZ op ↔ w &&& 0xFFFFFFFF = formatZ op := by
  rw [eq_formatZ_iff, and_maskZ_eq_iff]

theorem eq_formatS_iff_masked {x : BitVec 8} :
    w = formatS op x ↔ w &&& 0xFFFFFF00 = formatS op 0 ∧ field 0 8 w = x := by
  rw [eq_formatS_iff, and_maskS_eq_iff, and_assoc, field]

theorem eq_formatA_iff_masked {sym : Symbol} {nm1 : BitVec 4} {code : BitVec 16} :
    w = formatA op sym nm1 code ↔ w &&& 0xF0000000 = formatA op 0 0 0 ∧
      field 20 8 w = sym ∧ field 16 4 w = nm1 ∧ field 0 16 w = code := by
  rw [eq_formatA_iff, and_maskA_eq_iff, field, field, field]

theorem eq_formatL_iff_masked {idx : NodeIdx} {sym : Symbol} : w = formatL op idx sym ↔
    w &&& 0xFFFE0000 = formatL op 0 0 ∧ field 8 9 w = idx ∧ field 0 8 w = sym := by
  rw [eq_formatL_iff, and_maskL_eq_iff, and_assoc, field, field]

theorem eq_formatN_iff_masked {idx left right : NodeIdx} : w = formatN op idx left right ↔
    w &&& 0xF8000000 = formatN op 0 0 0 ∧
      field 18 9 w = idx ∧ field 9 9 w = left ∧ field 0 9 w = right := by
  rw [eq_formatN_iff, and_maskN_eq_iff, and_assoc, field, field, field]

theorem eq_formatT_iff_masked {root : NodeIdx} {pad : Pad} : w = formatT op root pad ↔
    w &&& 0xFFFE00F8 = formatT op 0 0 ∧ field 8 9 w = root ∧ field 0 3 w = pad := by
  rw [eq_formatT_iff, and_maskT_eq_iff, and_assoc, and_assoc,
    and_left_comm (a := w.extractLsb' 8 9 = root), field, field]

end

/-! ### The rows of the opcode map -/

theorem OpcodeRow.accepts_iff {r : OpcodeRow} {p : Port} {w : Word} :
    r.accepts p w = true ↔ r.port = p ∧ w &&& r.mask = r.pattern := by
  simp [OpcodeRow.accepts]

/-- Every row fixes the opcode (R84). -/
theorem opcode_of_accepts {r : OpcodeRow} (hr : r ∈ opcodeMap) {p : Port} {w : Word}
    (h : r.accepts p w = true) : w.extractLsb' 28 4 = r.pattern.extractLsb' 28 4 := by
  have hmask : ∀ r ∈ opcodeMap, r.mask.extractLsb' 28 4 = BitVec.allOnes 4 := by decide
  rw [← (OpcodeRow.accepts_iff.1 h).2, extractLsb'_and_of_kept (hmask r hr)]

/-- No two rows have the same opcode (R85). -/
theorem opcodes_nodup : (opcodeMap.map fun r => r.pattern.extractLsb' 28 4).Nodup := by decide

theorem row_unique {r r' : OpcodeRow} (hr : r ∈ opcodeMap) (hr' : r' ∈ opcodeMap) {p : Port}
    {w : Word} (h : r.accepts p w = true) (h' : r'.accepts p w = true) : r = r' :=
  List.inj_on_of_nodup_map opcodes_nodup hr hr'
    ((opcode_of_accepts hr h).symm.trans (opcode_of_accepts hr' h'))

theorem decode_eq_none_iff {p : Port} {w : Word} :
    decode p w = none ↔ ∀ r ∈ opcodeMap, ¬ r.accepts p w = true := by
  rw [decode, Option.map_eq_none_iff, List.find?_eq_none]

/-- A word decodes to what a row that accepts it reads (R85). -/
theorem decode_of_accepts {r : OpcodeRow} (hr : r ∈ opcodeMap) {p : Port} {w : Word}
    (h : r.accepts p w = true) : decode p w = some (r.read w) := by
  cases hfind : opcodeMap.find? (fun r => r.accepts p w) with
  | none => exact absurd h (List.find?_eq_none.1 hfind r hr)
  | some r' =>
    obtain rfl := row_unique hr (List.mem_of_find?_eq_some hfind) h
      (List.find?_some (p := fun r : OpcodeRow => r.accepts p w) hfind)
    simp [decode, hfind]

/-- The word of a command is the one that the command's row accepts and reads as the command. -/
theorem eq_encode_iff {i : Instr} {w : Word} : w = encode i ↔
    ∃ r ∈ opcodeMap, r.accepts i.port w = true ∧ r.read w = i := by
  cases i <;> simp only [opcodeMap, OpcodeRow.accepts_iff, Instr.port, List.exists_mem_cons_iff,
    List.not_mem_nil, Instr.ctClr.injEq, Instr.ctApp.injEq, Instr.encSym.injEq,
    Instr.nmLeaf.injEq, Instr.nmInt.injEq, Instr.decStart.injEq, Instr.decByte.injEq,
    reduceCtorEq, false_and, and_false, true_and, and_true, or_false, false_or, exists_false]
  case encInit => exact eq_formatZ_iff_masked (op := 1)
  case ctClr => exact eq_formatS_iff_masked (op := 2)
  case ctApp => exact eq_formatA_iff_masked (op := 3)
  case encSym => exact eq_formatS_iff_masked (op := 4)
  case encFlush => exact eq_formatZ_iff_masked (op := 5)
  case decInit => exact eq_formatZ_iff_masked (op := 8)
  case nmLeaf => exact eq_formatL_iff_masked (op := 9)
  case nmInt => exact eq_formatN_iff_masked (op := 10)
  case decStart => exact eq_formatT_iff_masked (op := 11)
  case decByte => exact eq_formatS_iff_masked (op := 12)
  case decEnd => exact eq_formatZ_iff_masked (op := 13)

/-- A word decodes to a command exactly on the command's port and when it is the command's word. -/
theorem decode_eq_some_iff {p : Port} {w : Word} {i : Instr} :
    decode p w = some i ↔ i.port = p ∧ w = encode i := by
  constructor
  · intro h
    obtain rfl := decode_port h
    obtain ⟨r, hfind, rfl⟩ := Option.map_eq_some_iff.1 h
    exact ⟨rfl, eq_encode_iff.2
      ⟨r, List.mem_of_find?_eq_some hfind,
        List.find?_some (p := fun r : OpcodeRow => r.accepts _ w) hfind, rfl⟩⟩
  · rintro ⟨rfl, h⟩
    obtain ⟨r, hr, hacc, hread⟩ := eq_encode_iff.1 h
    rw [decode_of_accepts hr hacc, hread]

/-- The rows of a port that accept a word all have the word's opcode, and no two rows share one. -/
theorem length_filter_accepts_le_one (p : Port) (w : Word) :
    (opcodeMap.filter fun r => r.accepts p w).length ≤ 1 := by
  have hnodup := opcodes_nodup.sublist
    ((List.filter_sublist (p := fun r : OpcodeRow => r.accepts p w)).map _)
  have hsame := List.eq_replicate_of_mem (a := w.extractLsb' 28 4)
    (l := (opcodeMap.filter fun r => r.accepts p w).map fun r => r.pattern.extractLsb' 28 4)
    (fun op hop => by
      obtain ⟨r, hr, rfl⟩ := List.mem_map.1 hop
      obtain ⟨hmem, hacc⟩ := List.mem_filter.1 hr
      exact (opcode_of_accepts hmem hacc).symm)
  rw [hsame, List.nodup_replicate, List.length_map] at hnodup
  exact hnodup

/-! ### Illegal words -/

/-- The rows of ENC by opcode and reserved bits (R82, R84). -/
theorem decode_enc_eq_none_iff_rows {w : Word} : decode .enc w = none ↔
    ¬(w.extractLsb' 28 4 = 1 ∧ w.extractLsb' 0 28 = 0) ∧
    ¬(w.extractLsb' 28 4 = 2 ∧ w.extractLsb' 8 20 = 0) ∧ ¬w.extractLsb' 28 4 = 3 ∧
    ¬(w.extractLsb' 28 4 = 4 ∧ w.extractLsb' 8 20 = 0) ∧
    ¬(w.extractLsb' 28 4 = 5 ∧ w.extractLsb' 0 28 = 0) := by
  rw [decode_eq_none_iff, ← and_maskZ_eq_iff, ← and_maskZ_eq_iff, ← and_maskS_eq_iff,
    ← and_maskS_eq_iff, ← and_maskA_eq_iff]
  simp only [opcodeMap, OpcodeRow.accepts_iff, List.forall_mem_cons, List.not_mem_nil,
    reduceCtorEq, false_and, false_implies, implies_true, not_false_eq_true, true_and, and_true]
  rfl

/-- The rows of DEC by opcode and reserved bits (R82, R84). -/
theorem decode_dec_eq_none_iff_rows {w : Word} : decode .dec w = none ↔
    ¬(w.extractLsb' 28 4 = 8 ∧ w.extractLsb' 0 28 = 0) ∧
    ¬(w.extractLsb' 28 4 = 9 ∧ w.extractLsb' 17 11 = 0) ∧
    ¬(w.extractLsb' 28 4 = 10 ∧ w.extractLsb' 27 1 = 0) ∧
    ¬(w.extractLsb' 28 4 = 11 ∧ w.extractLsb' 17 11 = 0 ∧ w.extractLsb' 3 5 = 0) ∧
    ¬(w.extractLsb' 28 4 = 12 ∧ w.extractLsb' 8 20 = 0) ∧
    ¬(w.extractLsb' 28 4 = 13 ∧ w.extractLsb' 0 28 = 0) := by
  rw [decode_eq_none_iff, ← and_maskZ_eq_iff, ← and_maskZ_eq_iff, ← and_maskL_eq_iff,
    ← and_maskN_eq_iff, ← and_maskT_eq_iff, ← and_maskS_eq_iff]
  simp only [opcodeMap, OpcodeRow.accepts_iff, List.forall_mem_cons, List.not_mem_nil,
    reduceCtorEq, false_and, false_implies, implies_true, not_false_eq_true, true_and, and_true]
  rfl

theorem opcode_cases (op : BitVec 4) :
    op = 0 ∨ op = 1 ∨ op = 2 ∨ op = 3 ∨ op = 4 ∨ op = 5 ∨ op = 6 ∨ op = 7 ∨ op = 8 ∨ op = 9 ∨
      op = 10 ∨ op = 11 ∨ op = 12 ∨ op = 13 ∨ op = 14 ∨ op = 15 := by
  revert op
  decide

theorem decode_enc_eq_none_iff (w : Word) : decode .enc w = none ↔
    (w.extractLsb' 28 4 ∈ [0, 6, 7, 14, 15] ∨ w.extractLsb' 28 4 ∈ [8, 9, 10, 11, 12, 13] ∨
      (w.extractLsb' 28 4 ∈ [1, 5] ∧ w.extractLsb' 0 28 ≠ 0) ∨
      (w.extractLsb' 28 4 ∈ [2, 4] ∧ w.extractLsb' 8 20 ≠ 0)) := by
  rw [decode_enc_eq_none_iff_rows]
  rcases opcode_cases (w.extractLsb' 28 4) with h | h | h | h | h | h | h | h | h | h | h | h |
    h | h | h | h <;> simp [h]

theorem decode_dec_eq_none_iff (w : Word) : decode .dec w = none ↔
    (w.extractLsb' 28 4 ∈ [0, 6, 7, 14, 15] ∨ w.extractLsb' 28 4 ∈ [1, 2, 3, 4, 5] ∨
      (w.extractLsb' 28 4 ∈ [8, 13] ∧ w.extractLsb' 0 28 ≠ 0) ∨
      (w.extractLsb' 28 4 = 9 ∧ w.extractLsb' 17 11 ≠ 0) ∨
      (w.extractLsb' 28 4 = 10 ∧ w.extractLsb' 27 1 ≠ 0) ∨
      (w.extractLsb' 28 4 = 11 ∧ (w.extractLsb' 17 11 ≠ 0 ∨ w.extractLsb' 3 5 ≠ 0)) ∨
      (w.extractLsb' 28 4 = 12 ∧ w.extractLsb' 8 20 ≠ 0)) := by
  rw [decode_dec_eq_none_iff_rows]
  rcases opcode_cases (w.extractLsb' 28 4) with h | h | h | h | h | h | h | h | h | h | h | h |
    h | h | h | h <;> simp [h, imp_iff_not_or]

/-- An illegal word on a port raises ILLEGAL_CMD, or is ignored in FAULT (R224, R233). -/
theorem step_illegal_enc {w : Word} (h : decode .enc w = none) (s : State) (rest : List Input) :
    step { s with inputs := .command .enc w :: rest } =
      if s.enc.phase = .fault then .next { s with inputs := rest }
      else .next { s with
        enc := { s.enc with phase := .fault, cause := .illegalCmd }, inputs := rest } := by
  rw [step_command, acceptWord, h]
  simp [illegalCommand, State.afterEnc]

theorem step_illegal_dec {w : Word} (h : decode .dec w = none) (s : State) (rest : List Input) :
    step { s with inputs := .command .dec w :: rest } =
      if s.dec.phase = .fault then .next { s with inputs := rest }
      else .next { s with
        dec := { s.dec with phase := .fault, cause := .illegalCmd }, inputs := rest } := by
  rw [step_command, acceptWord, h]
  simp [illegalCommand, State.afterDec]

/-! ### The obligations about decoding -/

/-- Settles O1: the command's row accepts the command's word and reads the command off it. -/
theorem decodeOfEncodeIsTheCommand : Obligations.DecodeOfEncodeIsTheCommand := by
  intro p i h
  exact decode_eq_some_iff.2 ⟨by simpa [wellFormed] using h, rfl⟩

/-- Settles O2: a row fixes every bit of a word that is in no field of its format. -/
theorem encodeOfDecodeIsTheWord : Obligations.EncodeOfDecodeIsTheWord := by
  intro p w i h
  obtain ⟨hport, hw⟩ := decode_eq_some_iff.1 h
  exact ⟨hw.symm, by simpa [wellFormed] using hport⟩

/-- Settles O3: no two rows have the same opcode. -/
theorem atMostOneRowMatchesAWord : Obligations.AtMostOneRowMatchesAWord := by
  intro p w
  refine ⟨length_filter_accepts_le_one p w, ?_⟩
  rw [decode_eq_none_iff, List.length_eq_zero_iff, List.filter_eq_nil_iff]

/-- Settles O4: the rows of each port by opcode and reserved bits, and the fault of a word that no
row accepts. -/
theorem illegalWordsAndTheirEffect : Obligations.IllegalWordsAndTheirEffect :=
  ⟨decode_enc_eq_none_iff, decode_dec_eq_none_iff, fun p => by cases p <;> decide,
    fun _ s rest h => step_illegal_enc h s rest, fun _ s rest h => step_illegal_dec h s rest⟩

/-! ### The words of the assembler lines -/

/-- A field put at `lo` is read back there. -/
@[simp] theorem extractLsb'_shiftLeft_same {n lo : Nat} {x : BitVec n} (h : lo + n ≤ 32) :
    (x.setWidth 32 <<< lo).extractLsb' lo n = x := by
  ext j hj
  have hlo : lo + j < 32 := by omega
  simp [hj, hlo]

/-- A field put at `lo` is not seen in a range apart from it. -/
@[simp] theorem extractLsb'_shiftLeft_apart {n lo lo' len : Nat} {x : BitVec n}
    (h : lo' + len ≤ lo ∨ lo + n ≤ lo') : (x.setWidth 32 <<< lo).extractLsb' lo' len = 0 := by
  ext j hj
  rcases h with h | h
  · have hlo : ¬ lo ≤ lo' + j := by omega
    simp [hlo]
  · have hge : n ≤ lo' + j - lo := by omega
    simp [BitVec.getLsbD_of_ge x _ hge]

@[simp] theorem extractLsb'_setWidth_same {n : Nat} {x : BitVec n} (h : n ≤ 32) :
    (x.setWidth 32).extractLsb' 0 n = x := by
  have := extractLsb'_shiftLeft_same (lo := 0) (x := x) (by omega)
  rwa [BitVec.shiftLeft_zero] at this

@[simp] theorem extractLsb'_setWidth_apart {n lo' len : Nat} {x : BitVec n} (h : n ≤ lo') :
    (x.setWidth 32).extractLsb' lo' len = 0 := by
  have := extractLsb'_shiftLeft_apart (lo := 0) (lo' := lo') (len := len) (x := x) (.inr (by omega))
  rwa [BitVec.shiftLeft_zero] at this

section

variable (op : BitVec 4)

theorem formatS_eq_or (x : BitVec 8) : formatS op x = formatS op 0 ||| x.setWidth 32 := by
  obtain ⟨hop, hres, hx⟩ := eq_formatS_iff.1 (Eq.refl (formatS op 0#8))
  rw [eq_comm, eq_formatS_iff]
  simp [BitVec.extractLsb'_or, hop, hres, hx]

theorem formatA_eq_or (sym : Symbol) (nm1 : BitVec 4) (code : BitVec 16) :
    formatA op sym nm1 code = formatA op 0 0 0 ||| sym.setWidth 32 <<< 20 |||
      nm1.setWidth 32 <<< 16 ||| code.setWidth 32 := by
  obtain ⟨hop, hsym, hnm1, hcode⟩ := eq_formatA_iff.1 (Eq.refl (formatA op 0#8 0#4 0#16))
  rw [eq_comm, eq_formatA_iff]
  simp [BitVec.extractLsb'_or, hop, hsym, hnm1, hcode]

theorem formatL_eq_or (idx : NodeIdx) (sym : Symbol) : formatL op idx sym =
    formatL op 0 0 ||| idx.setWidth 32 <<< 8 ||| sym.setWidth 32 := by
  obtain ⟨hop, hres, hidx, hsym⟩ := eq_formatL_iff.1 (Eq.refl (formatL op 0#9 0#8))
  rw [eq_comm, eq_formatL_iff]
  simp [BitVec.extractLsb'_or, hop, hres, hidx, hsym]

theorem formatN_eq_or (idx left right : NodeIdx) : formatN op idx left right =
    formatN op 0 0 0 ||| idx.setWidth 32 <<< 18 ||| left.setWidth 32 <<< 9 |||
      right.setWidth 32 := by
  obtain ⟨hop, hres, hidx, hleft, hright⟩ := eq_formatN_iff.1 (Eq.refl (formatN op 0#9 0#9 0#9))
  rw [eq_comm, eq_formatN_iff]
  simp [BitVec.extractLsb'_or, hop, hres, hidx, hleft, hright]

theorem formatT_eq_or (root : NodeIdx) (pad : Pad) : formatT op root pad =
    formatT op 0 0 ||| root.setWidth 32 <<< 8 ||| pad.setWidth 32 := by
  obtain ⟨hop, hres, hroot, hres', hpad⟩ := eq_formatT_iff.1 (Eq.refl (formatT op 0#9 0#3))
  rw [eq_comm, eq_formatT_iff]
  simp [BitVec.extractLsb'_or, hop, hres, hroot, hres', hpad]

end

/-- The low 16 bits of any number, in the field `code` and in a word (R83, R95). -/
theorem setWidth_ofNat_code (code : Nat) :
    (BitVec.ofNat 16 code).setWidth 32 = BitVec.ofNat 32 code &&& 0xFFFF := by
  have hmask : code % 2 ^ 32 &&& 0xFFFF = code % 2 ^ 32 % 2 ^ 16 :=
    Nat.and_two_pow_sub_one_eq_mod _ 16
  apply BitVec.eq_of_toNat_eq
  rw [BitVec.toNat_and, BitVec.toNat_ofNat, BitVec.toNat_setWidth, BitVec.toNat_ofNat]
  change _ = code % 2 ^ 32 &&& 0xFFFF
  omega

/-- Settles O6: the picture of a format is the or of its opcode and its fields, each shifted to its
place, and a number that fits a field is the same in the field and in a word. -/
theorem assemblerLinesHaveTheTableWords : Obligations.AssemblerLinesHaveTheTableWords := by
  intro sym n code idx left right root pad byte hsym hn hn' hidx hleft hright hroot hpad hbyte
  have width {k m : Nat} (hk : k ≤ 32) (hm : m < 2 ^ k) :
      (BitVec.ofNat k m).setWidth 32 = BitVec.ofNat 32 m :=
    BitVec.setWidth_ofNat_of_le_of_lt hk hm
  refine ⟨rfl, ?_, ?_, ?_, rfl, rfl, ?_, ?_, ?_, ?_, rfl⟩
  · change [formatS 2 (BitVec.ofNat 8 sym)] = _
    rw [formatS_eq_or, width (by decide) hsym]
    rfl
  · change [formatA 3 (BitVec.ofNat 8 sym) (BitVec.ofNat 4 (n - 1)) (BitVec.ofNat 16 code)] = _
    rw [formatA_eq_or, width (by decide) hsym, width (by decide) (by omega), setWidth_ofNat_code]
    rfl
  · change [formatS 4 (BitVec.ofNat 8 sym)] = _
    rw [formatS_eq_or, width (by decide) hsym]
    rfl
  · change [formatL 9 (BitVec.ofNat 9 idx) (BitVec.ofNat 8 sym)] = _
    rw [formatL_eq_or, width (by decide) hidx, width (by decide) hsym]
    rfl
  · change [formatN 10 (BitVec.ofNat 9 idx) (BitVec.ofNat 9 left) (BitVec.ofNat 9 right)] = _
    rw [formatN_eq_or, width (by decide) hidx, width (by decide) hleft, width (by decide) hright]
    rfl
  · change [formatT 11 (BitVec.ofNat 9 root) (BitVec.ofNat 3 pad)] = _
    rw [formatT_eq_or, width (by decide) hroot, width (by decide) hpad]
    rfl
  · change [formatS 12 (BitVec.ofNat 8 byte)] = _
    rw [formatS_eq_or, width (by decide) hbyte]
    rfl

/-! ### What `CT_APP` appends -/

theorem appendedBits_congr {nm1 : BitVec 4} {c c' : BitVec 16}
    (h : ∀ j, j ≤ nm1.toNat → c.getLsbD j = c'.getLsbD j) :
    appendedBits nm1 c = appendedBits nm1 c' := by
  refine List.ext_getElem (by simp) fun j _ _ => ?_
  rw [appendedBits_getElem, appendedBits_getElem, h _ (Nat.sub_le _ _)]

/-- Settles O7: the rule of `CT_APP` uses `code` only through the bits it appends. -/
theorem ctAppIgnoresHighCodeBits : Obligations.CtAppIgnoresHighCodeBits := by
  intro sym nm1 c c' s h
  have hrule : appendCode sym nm1 c = appendCode sym nm1 c' := by
    funext e
    rw [appendCode, appendCode, appendedBits_congr h]
  rw [exec_ctApp, exec_ctApp, hrule]

/-- Settles O5: each word read by the row of its opcode. -/
theorem writtenOutWordsDecode : Obligations.WrittenOutWordsDecode := by
  unfold Obligations.WrittenOutWordsDecode
  decide

/-! ### Every word has a next state -/

theorem acceptWord_next (p : Port) (w : Word) (s : State) :
    ∃ t, acceptWord p w s = .next t ∧ t.inputs = s.inputs := by
  cases p with
  | enc =>
    obtain ⟨F, hF⟩ := acceptWord_enc w
    exact ⟨_, hF s, rfl⟩
  | dec =>
    obtain ⟨F, hF⟩ := acceptWord_dec w
    exact ⟨_, hF s, rfl⟩

theorem acceptInput_ne_refused (x : Input) (s : State) (r : Refusal) :
    acceptInput x s ≠ .refused r := by
  rcases acceptInput_cases x s with ⟨t, ht, -, -⟩ | ⟨f, hf⟩
  · simp [ht]
  · simp [hf s.inputs]

theorem acceptStalled_eq_fault {p : Port} {w : Word} {handed : Nat} {s : State} {f : Fault}
    (h : acceptStalled p w handed s = .fault f) : f = .sinkNeverReady p := by
  obtain ⟨t, ht, -⟩ := acceptWord_next p w s
  simp only [acceptStalled, ht] at h
  split at h
  · exact (Host.Outcome.fault.inj h).symm
  · exact absurd h (by simp)

/-- Only a stalled sink stops the machine (R257; log entry 3). -/
theorem acceptInput_eq_fault {x : Input} {s : State} {f : Fault} (h : acceptInput x s = .fault f) :
    ∃ p w handed, x = .commandStalled p w handed ∧ f = .sinkNeverReady p := by
  cases x with
  | command p w =>
    obtain ⟨t, ht, -⟩ := acceptWord_next p w s
    simp [acceptInput, ht] at h
  | commandStalled p w handed => exact ⟨p, w, handed, rfl, acceptStalled_eq_fault h⟩
  | reset c d => simp [acceptInput] at h

/-- Settles O10: a word is an effect on its unit, which always answers; a fault comes from a stalled
sink alone. -/
theorem onlyASinkThatIsNeverReadyStopsTheMachine :
    Obligations.OnlyASinkThatIsNeverReadyStopsTheMachine := by
  refine ⟨fun p w s rest => acceptWord_next p w { s with inputs := rest }, fun s r h => ?_,
    fun s f h => ?_⟩
  · cases hi : s.inputs with
    | nil => simp [step_of_no_inputs hi] at h
    | cons x rest => exact acceptInput_ne_refused x _ r (step_of_inputs hi ▸ h)
  · cases hi : s.inputs with
    | nil => simp [step_of_no_inputs hi] at h
    | cons x rest =>
      rw [step_of_inputs hi] at h
      obtain ⟨p, w, handed, rfl, hf⟩ := acceptInput_eq_fault h
      exact ⟨p, w, handed, rest, rfl, hf⟩

/-! ### The chunks of `CT_SET` (R96) -/

theorem chunks_flatten {fuel : Nat} {bits : Bits} (h : bits.length ≤ fuel) :
    (chunks fuel bits).flatten = bits := by
  induction fuel generalizing bits with
  | zero => simpa [chunks, eq_comm] using h
  | succ fuel ih =>
    cases bits with
    | nil => rfl
    | cons b bs =>
      have hrest : ((b :: bs).drop Config.appMax).length ≤ fuel := by
        simp [Config.appMax] at h ⊢
        omega
      simp only [chunks, List.isEmpty_cons, Bool.false_eq_true, if_false, List.flatten_cons,
        ih hrest, List.take_append_drop]

theorem chunks_length {fuel : Nat} {bits c : Bits} (h : c ∈ chunks fuel bits) :
    1 ≤ c.length ∧ c.length ≤ Config.appMax := by
  induction fuel generalizing bits with
  | zero => simp [chunks] at h
  | succ fuel ih =>
    cases bits with
    | nil => simp [chunks] at h
    | cons b bs =>
      simp only [chunks, List.isEmpty_cons, Bool.false_eq_true, if_false, List.mem_cons] at h
      rcases h with rfl | h
      · simp [Config.appMax]
      · exact ih h

theorem bitsValue_snoc (bits : Bits) (b : Bool) :
    bitsValue (bits ++ [b]) = Nat.bit b (bitsValue bits) := by
  simp [bitsValue, Nat.bit_val]

/-- The binary digits of the value of a bit string are its bits, the last one lowest (R65). -/
theorem testBit_bitsValue (bits : Bits) (j : Nat) (hj : j < bits.length) :
    (bitsValue bits).testBit (bits.length - 1 - j) = bits[j] := by
  induction bits using List.reverseRecOn with
  | nil => simp at hj
  | append_singleton bits b ih =>
    rw [bitsValue_snoc, List.length_append, List.length_singleton, Nat.add_sub_cancel]
    by_cases hlast : j < bits.length
    · have hpos : bits.length - j = bits.length - 1 - j + 1 := by omega
      rw [hpos, Nat.testBit_bit_succ, ih hlast, List.getElem_append_left hlast]
    · have heq : j = bits.length := by simp at hj; omega
      subst heq
      simp

/-- The command that loads one chunk (R96). -/
def chunkLoad (sym : Symbol) (c : Bits) : Instr :=
  .ctApp sym (BitVec.ofNat 4 (c.length - 1)) (BitVec.ofNat 16 (bitsValue c))

theorem codeLoads_eq (sym : Symbol) (bits : Bits) :
    codeLoads sym bits = (chunks bits.length bits).map (chunkLoad sym) := rfl

/-- The command that loads a chunk appends exactly the chunk (R96, R114). -/
theorem appendedBits_chunk {c : Bits} (h1 : 1 ≤ c.length) (h16 : c.length ≤ Config.appMax) :
    appendedBits (BitVec.ofNat 4 (c.length - 1)) (BitVec.ofNat 16 (bitsValue c)) = c := by
  have h16' : c.length ≤ 16 := h16
  have hnm1 : (BitVec.ofNat 4 (c.length - 1)).toNat = c.length - 1 := by
    rw [BitVec.toNat_ofNat]
    omega
  have hlen : appendCount (BitVec.ofNat 4 (c.length - 1)) = c.length := by
    rw [appendCount, hnm1]
    omega
  refine List.ext_getElem (by rw [appendedBits_length, hlen]) fun j _ hj => ?_
  have hlow : c.length - 1 - j < 16 := by omega
  rw [appendedBits_getElem, hnm1, BitVec.getLsbD_ofNat, testBit_bitsValue c j hj]
  simp [hlow]

/-! ### Loading one code -/

/-- From `s` to `t` one code became `c` and nothing else changed. -/
structure CodeSet (sym : Symbol) (c : Bits) (s t : State) : Prop where
  code : t.enc.code sym = c
  others : ∀ y, y ≠ sym → t.enc.code y = s.enc.code y
  frame : t = { s with enc := { s.enc with ct := t.enc.ct } }

theorem CodeSet.of_setCode (sym : Symbol) (c : Bits) (s : State) :
    CodeSet sym c s { s with enc := s.enc.setCode sym c } where
  code := by simp
  others := fun y hy => by simp [hy]
  frame := rfl

theorem CodeSet.trans {sym : Symbol} {c c' : Bits} {s t u : State} (h : CodeSet sym c s t)
    (h' : CodeSet sym c' t u) : CodeSet sym c' s u where
  code := h'.code
  others := fun y hy => (h'.others y hy).trans (h.others y hy)
  frame := by
    rw [h'.frame, h.frame]

theorem CodeSet.phase {sym : Symbol} {c : Bits} {s t : State} (h : CodeSet sym c s t) :
    t.enc.phase = s.enc.phase := by
  rw [h.frame]

theorem exec_ctClr_of_load (sym : Symbol) {s : State} (hp : s.enc.phase = .load) :
    exec (.ctClr sym) s = .next { s with enc := s.enc.setCode sym [] } := by
  rw [exec_ctClr, encCommand_eq, hp]
  simp [whileLoading, clearCode, State.afterEnc]

theorem exec_ctApp_of_load {sym : Symbol} {nm1 : BitVec 4} (code : BitVec 16) {s : State}
    (hp : s.enc.phase = .load)
    (hfit : (s.enc.code sym).length + appendCount nm1 ≤ Config.lMax) :
    exec (.ctApp sym nm1 code) s =
      .next { s with enc := s.enc.setCode sym (s.enc.code sym ++ appendedBits nm1 code) } := by
  have hrule : appendCode sym nm1 code s.enc =
      .ran (s.enc.setCode sym (s.enc.code sym ++ appendedBits nm1 code)) [] := by
    rw [appendCode, if_neg (Nat.not_lt.2 hfit)]
  rw [exec_ctApp, encCommand_eq, hp, hrule]
  simp [whileLoading, State.afterEnc]

/-- The word of a command, written to the command's port, does what the command does. -/
theorem does_writes_cons {i : Instr} {s t : State} (h : exec i s = .next t) (cmds : List Instr) :
    s.does (writes (i :: cmds)) = t.does (writes cmds) := by
  have haccept : acceptInput (.command i.port (encode i)) s = .next t :=
    (acceptWord_of_decode (decode_eq_some_iff.2 ⟨rfl, rfl⟩) s).trans h
  exact does_cons haccept (writes cmds)

/-- The loads of the chunks append them all. -/
theorem does_chunkLoads (sym : Symbol) {cs : List Bits} {s : State}
    (hcs : ∀ c ∈ cs, 1 ≤ c.length ∧ c.length ≤ Config.appMax) (hp : s.enc.phase = .load)
    (hfit : (s.enc.code sym).length + cs.flatten.length ≤ Config.lMax) :
    ∃ t, s.does (writes (cs.map (chunkLoad sym))) = .next t ∧
      CodeSet sym (s.enc.code sym ++ cs.flatten) s t := by
  induction cs generalizing s with
  | nil => exact ⟨s, rfl, by simp, fun _ _ => rfl, rfl⟩
  | cons c cs ih =>
    obtain ⟨h1, h16⟩ := hcs c (by simp)
    have happ := appendedBits_chunk h1 h16
    have hcount := congrArg List.length happ
    rw [appendedBits_length] at hcount
    rw [List.flatten_cons, List.length_append] at hfit
    have hexec := exec_ctApp_of_load (sym := sym) (BitVec.ofNat 16 (bitsValue c)) hp
      (by rw [hcount]; omega)
    rw [happ] at hexec
    have hset := CodeSet.of_setCode sym (s.enc.code sym ++ c) s
    obtain ⟨t, ht, htset⟩ := ih (s := { s with enc := s.enc.setCode sym (s.enc.code sym ++ c) })
      (fun d hd => hcs d (by simp [hd])) hp
      (by rw [hset.code, List.length_append]; omega)
    refine ⟨t, (does_writes_cons hexec _).trans ht, ?_⟩
    rw [hset.code, List.append_assoc] at htset
    exact hset.trans htset

/-- The `CT_APP` commands of a bit string append it whole to the code of a symbol (R96, R190). -/
theorem does_codeLoads {sym : Symbol} {bits : Bits} {s : State} (hp : s.enc.phase = .load)
    (hfit : (s.enc.code sym).length + bits.length ≤ Config.lMax) :
    ∃ t, s.does (writes (codeLoads sym bits)) = .next t ∧
      CodeSet sym (s.enc.code sym ++ bits) s t := by
  have hflat := chunks_flatten (Nat.le_refl bits.length)
  have h := does_chunkLoads sym (fun _ hc => chunks_length hc) hp (hflat.symm ▸ hfit)
  rwa [hflat, ← codeLoads_eq] at h

/-- Settles O44: `CT_CLR` empties the code, and the `CT_APP` commands append the chunks of the
string. -/
theorem ctSetLoadsTheWholeCode : Obligations.CtSetLoadsTheWholeCode := by
  intro sym bits s hwf hp
  have hlen : bits.length ≤ Config.lMax := by
    simp only [AsmLine.wellFormed, Bool.and_eq_true, decide_eq_true_eq] at hwf
    exact hwf.2
  have hclr := CodeSet.of_setCode (BitVec.ofNat 8 sym) [] s
  obtain ⟨t, ht, htset⟩ := does_codeLoads (hclr.phase.trans hp) (bits := bits)
    (by rw [hclr.code]; simpa using hlen)
  rw [hclr.code, List.nil_append] at htset
  obtain ⟨hcode, hothers, hframe⟩ := hclr.trans htset
  exact ⟨t, (does_writes_cons (exec_ctClr_of_load _ hp) _).trans ht, hcode, hothers, hframe⟩

end Sys2Proof.Machine

/-! PROOFS of the encoder statements (spec/40_encoder.md): what each command of ENC does in each phase,
how many bytes it emits, and what a whole run of ENC emits. -/

namespace Sys2Proof.Machine

/-! ### The commands of ENC by phase (R117) -/

theorem afterEnc_raise (c : Cause) (s : State) :
    s.afterEnc (s.enc.raise c) = { s with enc := { s.enc with phase := .fault, cause := c } } := by
  simp [State.afterEnc]

section

variable {r : Enc → Effect Enc} {s : State}

theorem encCommand_whileLoading_of_accepted (hp : s.enc.phase = .load) :
    encCommand whileLoading r s = .next (s.afterEnc (r s.enc)) := by
  simp [encCommand_eq, hp, whileLoading]

theorem encCommand_whileLoading_of_rejected (hp : s.enc.phase = .run ∨ s.enc.phase = .done) :
    encCommand whileLoading r s =
      .next { s with enc := { s.enc with phase := .fault, cause := .protocol } } := by
  rw [← afterEnc_raise]
  rcases hp with hp | hp <;> simp [encCommand_eq, hp, whileLoading]

theorem encCommand_untilFlushed_of_accepted (hp : s.enc.phase = .load ∨ s.enc.phase = .run) :
    encCommand untilFlushed r s = .next (s.afterEnc (r s.enc)) := by
  rcases hp with hp | hp <;> simp [encCommand_eq, hp, untilFlushed]

theorem encCommand_untilFlushed_of_rejected (hp : s.enc.phase = .done) :
    encCommand untilFlushed r s =
      .next { s with enc := { s.enc with phase := .fault, cause := .protocol } } := by
  rw [← afterEnc_raise]
  simp [encCommand_eq, hp, untilFlushed]

/-- A command of ENC emits no more than its own rule does in a phase that accepts it. -/
theorem encCommand_out_length {a : Phase → Bool} {n : Nat}
    (hr : a s.enc.phase = true → (r s.enc).out.length ≤ n) :
    ∃ f, encCommand a r s = .next (s.afterEnc f) ∧ f.out.length ≤ n := by
  refine ⟨_, encCommand_eq a r s, ?_⟩
  split
  · simp
  · split
    · next ha => exact hr ha
    · simp

/-- A command of ENC whose own rule emits nothing replaces the unit and changes nothing else. -/
theorem encCommand_of_silent {a : Phase → Bool} (hr : (r s.enc).out = []) :
    ∃ e, encCommand a r s = .next { s with enc := e } := by
  obtain ⟨f, hf, hout⟩ := encCommand_out_length (r := r) (s := s) (a := a) (n := 0)
    fun _ => by simp [hr]
  exact ⟨f.unit, by simp [hf, State.afterEnc, List.length_eq_zero_iff.1 (Nat.le_zero.1 hout)]⟩

end

/-! ### `ENC_INIT` (R112) -/

/-- The only word that takes ENC out of DONE and FAULT is `ENC_INIT` (R112, R225, R233). -/
theorem EncMove.init_of_left {w : Word} {e e' : Enc} (hm : EncMove w e e')
    (hp : e.phase = .done ∨ e.phase = .fault) :
    e'.phase = .done ∨ e'.phase = .fault ∨ decode .enc w = some .encInit := by
  cases hm with
  | ignored hf => exact .inr (.inl hf)
  | init hw => exact .inr (.inr hw)
  | rejected c _ _ => exact .inr (.inl rfl)
  | clear _ _ hl | append _ _ _ _ hl => simp [hl] at hp
  | symbol _ _ hl | flush _ hl => rcases hl with hl | hl <;> simp [hl] at hp

/-- Settles O15: `ENC_INIT` writes the reset state of ENC, and no other move leaves DONE or FAULT. -/
theorem encInitResult : Obligations.EncInitResult := by
  refine ⟨decode_eq_some_iff.2 ⟨rfl, rfl⟩,
    fun s => ⟨s.initEnc, rfl, rfl, rfl, Enc.code_reset, rfl, rfl, rfl, rfl⟩, ?_⟩
  intro p w s t rest h hp
  cases p with
  | enc =>
    rcases (acceptWord_enc_move h).init_of_left hp with hd | hf | hw
    · exact .inl hd
    · exact .inr (.inl hf)
    · exact .inr (.inr ⟨rfl, (decode_eq_some_iff.1 hw).2⟩)
  | dec =>
    have henc : t.enc = s.enc :=
      (State.side_enc_eq_iff.1 (acceptWord_side_of_ne (q := .enc) (by decide) h)).1
    rw [henc]
    exact hp.imp_right .inl

/-! ### `CT_CLR` (R113) and `CT_APP` (R114) -/

theorem Enc.setCode_setCode_same (e : Enc) (sym : Symbol) (c : Bits) :
    (e.setCode sym c).setCode sym c = e.setCode sym c := by
  simp only [Enc.setCode, Memory.write_write_same]

/-- Settles O16: `CT_CLR` sets one code to the empty one, and setting a code twice is setting it
once. -/
theorem ctClrResult : Obligations.CtClrResult := by
  intro sym s
  refine ⟨decode_eq_some_iff.2 ⟨rfl, (formatS_eq_or 2 sym).symm⟩, fun hp => ?_,
    encCommand_whileLoading_of_rejected⟩
  obtain ⟨hcode, hothers, hframe⟩ := CodeSet.of_setCode sym [] s
  refine ⟨_, exec_ctClr_of_load sym hp, hcode, hothers, hframe, ?_⟩
  rw [exec_ctClr_of_load sym (by exact hp)]
  simp only [Enc.setCode_setCode_same]

theorem appendCode_of_overflow {sym : Symbol} {nm1 : BitVec 4} (code : BitVec 16) {e : Enc}
    (h : Config.lMax < (e.code sym).length + appendCount nm1) :
    appendCode sym nm1 code e = e.raise .codeOverflow := by
  rw [appendCode, if_pos h]

/-- Settles O17: within 255 bits `CT_APP` sets one code to itself followed by the appended bits. -/
theorem ctAppResult : Obligations.CtAppResult := by
  intro sym nm1 code s
  refine ⟨decode_eq_some_iff.2 ⟨rfl, (formatA_eq_or 3 sym nm1 code).symm⟩, fun hp hfit => ?_,
    fun hp hover => ?_, encCommand_whileLoading_of_rejected⟩
  · obtain ⟨hcode, hothers, hframe⟩ :=
      CodeSet.of_setCode sym (s.enc.code sym ++ appendedBits nm1 code) s
    have hlen := appendedBits_length nm1 code
    refine ⟨_, appendedBits nm1 code, exec_ctApp_of_load code hp hfit, hcode, hlen,
      fun j hj => ?_, hothers, hframe⟩
    have hj' : j < (appendedBits nm1 code).length := by rw [hlen, appendCount]; omega
    rw [List.getElem?_eq_getElem hj', appendedBits_getElem]
  · rw [exec_ctApp, encCommand_whileLoading_of_accepted hp, appendCode_of_overflow code hover,
      afterEnc_raise]

/-! ### `ENC_SYM` (R115) -/

theorem encodeSymbol_of_no_code {sym : Symbol} {e : Enc} (h : e.code sym = []) :
    encodeSymbol sym e = e.raise .noCode := by
  simp [encodeSymbol, h]

theorem encodeSymbol_of_code {sym : Symbol} {e : Enc} (h : e.code sym ≠ []) :
    encodeSymbol sym e = .ran (pushBits (e.code sym) { e with phase := .run }).1
      (pushBits (e.code sym) { e with phase := .run }).2 := by
  simp [encodeSymbol, h]

/-- From `s` to `t` the bits `bs` went through the partial byte, which emitted the bytes `out`, and
nothing else of the machine changed but the phase of ENC (R93, R111). -/
structure Packed (bs : Bits) (out : List Byte) (s t : State) : Prop where
  stream : out.flatMap byteBits ++ t.enc.pending = s.enc.pending ++ bs
  free : t.enc.Free
  frame : t = { s with
    enc := { s.enc with phase := t.enc.phase, acc := t.enc.acc, nb := t.enc.nb },
    eout := s.eout ++ out }

namespace Packed

variable {bs bs' : Bits} {out out' : List Byte} {s t u : State}

theorem refl (h : s.enc.Free) : Packed [] [] s s where
  stream := by simp
  free := h
  frame := by simp

theorem trans (h : Packed bs out s t) (h' : Packed bs' out' t u) :
    Packed (bs ++ bs') (out ++ out') s u where
  stream := by
    rw [List.flatMap_append, List.append_assoc, h'.stream, ← List.append_assoc, h.stream,
      List.append_assoc]
  free := h'.free
  frame := by
    rw [h'.frame, h.frame]
    simp

theorem code (h : Packed bs out s t) (y : Symbol) : t.enc.code y = s.enc.code y := by
  rw [h.frame]
  rfl

/-- As many bits come out of the packer as went in: whole bytes, and fewer than eight pending. -/
theorem count (h : Packed bs out s t) : out.length = (s.enc.nb.toNat + bs.length) / 8 ∧
    t.enc.nb.toNat = (s.enc.nb.toNat + bs.length) % 8 := by
  have hlen := congrArg List.length h.stream
  simp only [List.length_append, flatMap_byteBits_length, Enc.pending_length] at hlen
  have := t.enc.nb.isLt
  omega

end Packed

/-- `ENC_SYM` of a symbol with a code packs the code (R115). -/
theorem exec_encSym_of_code {sym : Symbol} {s : State} (hfree : s.enc.Free)
    (hp : s.enc.phase = .load ∨ s.enc.phase = .run) (hc : s.enc.code sym ≠ []) :
    ∃ t out, exec (.encSym sym) s = .next t ∧ t.enc.phase = .run ∧
      Packed (s.enc.code sym) out s t := by
  obtain ⟨hstream, hfree'⟩ :=
    pushBits_stream (s.enc.code sym) (e := { s.enc with phase := .run }) hfree
  have hframe := pushBits_frame (s.enc.code sym) { s.enc with phase := .run }
  have hexec := encCommand_untilFlushed_of_accepted (r := encodeSymbol sym) hp
  rw [encodeSymbol_of_code hc] at hexec
  have hphase := congrArg Enc.phase hframe
  refine ⟨_, _, hexec, hphase, hstream, hfree', ?_⟩
  rw [State.afterEnc_enc, Effect.unit_ran, hphase, ← hframe]
  rfl

/-- Settles O18: a symbol with a code has its code packed; one without raises NO_CODE. -/
theorem encSymResult : Obligations.EncSymResult := by
  intro sym s
  refine ⟨decode_eq_some_iff.2 ⟨rfl, (formatS_eq_or 4 sym).symm⟩, fun hinv hp hc => ?_,
    fun hp hc => ?_, encCommand_untilFlushed_of_rejected⟩
  · obtain ⟨t, out, hexec, hphase, hpacked⟩ := exec_encSym_of_code hinv.free hp hc
    obtain ⟨hout, hnb⟩ := hpacked.count
    exact ⟨t, out, hexec, hpacked.stream, hout, hnb, hpacked.free, hphase ▸ hpacked.frame⟩
  · rw [exec_encSym, encCommand_untilFlushed_of_accepted hp, encodeSymbol_of_no_code hc,
      afterEnc_raise]

/-! ### `ENC_FLUSH` (R116) -/

theorem padOf_toNat (nb : BitVec 3) : (padOf nb).toNat = (8 - nb.toNat) % 8 := by
  revert nb
  decide

theorem exec_encFlush_of_accepted {s : State} (hp : s.enc.phase = .load ∨ s.enc.phase = .run) :
    exec .encFlush s = .next { s with
      enc := { s.enc with pad := padOf s.enc.nb, acc := 0, nb := 0, phase := .done },
      eout := s.eout ++ if s.enc.nb = 0 then [] else [s.enc.acc] } :=
  encCommand_untilFlushed_of_accepted hp

/-- Settles O19: the rule of `ENC_FLUSH`, and the unused bits are those below the pending ones. -/
theorem encFlushResult : Obligations.EncFlushResult := by
  refine ⟨decode_eq_some_iff.2 ⟨rfl, rfl⟩, fun s =>
    ⟨fun hp => ?_, encCommand_untilFlushed_of_rejected⟩⟩
  have hpad := padOf_toNat s.enc.nb
  refine ⟨_, padOf s.enc.nb, exec_encFlush_of_accepted hp, rfl, fun hnb => ?_, fun hnb => ?_,
    fun hinv j hj => hinv.free j (by omega)⟩
  · have hpos : s.enc.nb.toNat ≠ 0 := BitVec.toNat_ne_iff_ne.2 hnb
    omega
  · rw [hnb]
    rfl

/-! ### The commands that load the table emit nothing -/

/-- One of the two commands that load the code table (R50). -/
def LoadsCode (i : Instr) : Prop :=
  (∃ sym, i = .ctClr sym) ∨ ∃ sym nm1 code, i = .ctApp sym nm1 code

theorem LoadsCode.port {i : Instr} (h : LoadsCode i) : i.port = .enc := by
  rcases h with ⟨sym, rfl⟩ | ⟨sym, nm1, code, rfl⟩ <;> rfl

theorem appendCode_out (sym : Symbol) (nm1 : BitVec 4) (code : BitVec 16) (e : Enc) :
    (appendCode sym nm1 code e).out = [] := by
  unfold appendCode
  split <;> rfl

/-- A load, in any phase, changes nothing outside ENC and emits nothing (R113, R114). -/
theorem LoadsCode.exec_eq {i : Instr} (h : LoadsCode i) (s : State) :
    ∃ e, exec i s = .next { s with enc := e } := by
  rcases h with ⟨sym, rfl⟩ | ⟨sym, nm1, code, rfl⟩
  · exact encCommand_of_silent rfl
  · exact encCommand_of_silent (appendCode_out sym nm1 code s.enc)

/-! ### How many bytes one command emits (R118) -/

/-- At most 7 bits are pending and a code has at most 255 bits, which is at most 32 bytes (R118). -/
theorem encodeSymbol_out_length (sym : Symbol) {e : Enc} (h : e.Inv) :
    (encodeSymbol sym e).out.length ≤ 32 := by
  by_cases hc : e.code sym = []
  · simp [encodeSymbol_of_no_code hc]
  · have hcode : (e.code sym).length ≤ 255 := h.codes sym
    have hnb := e.nb.isLt
    have hout := (pushBits_count (e.code sym) (e := { e with phase := .run }) h.free).1
    rw [encodeSymbol_of_code hc, Effect.out_ran, hout]
    dsimp only
    omega

theorem flush_out_length (e : Enc) : (flush e).out.length ≤ 1 := by
  unfold flush
  dsimp only [Effect.out_ran]
  split <;> simp

/-- Settles O20: `ENC_SYM` and `ENC_FLUSH` by the bytes of their own rules; the loads are silent, and a
command of DEC leaves `EOUT`. -/
theorem bytesEmittedByOneEncCommand : Obligations.BytesEmittedByOneEncCommand := by
  intro i s hinv
  have emits {n : Nat} (h : ∃ f, exec i s = .next (s.afterEnc f) ∧ f.out.length ≤ n) :
      ∃ t, exec i s = .next t ∧ t.eout.length ≤ s.eout.length + n := by
    obtain ⟨f, hf, hn⟩ := h
    exact ⟨_, hf, by simpa using hn⟩
  have load (h : LoadsCode i) : ∃ t, exec i s = .next t ∧ t.eout.length ≤ s.eout.length := by
    obtain ⟨e, he⟩ := h.exec_eq s
    exact ⟨_, he, Nat.le_refl _⟩
  have dec (h : i.port = .dec) : ∃ t, exec i s = .next t ∧ t.eout.length ≤ s.eout.length := by
    obtain ⟨F, hF⟩ := exec_dec h
    exact ⟨_, hF s, Nat.le_refl _⟩
  cases i with
  | encInit => exact ⟨s.initEnc, rfl, Nat.le_refl _⟩
  | ctClr sym => exact load (.inl ⟨sym, rfl⟩)
  | ctApp sym nm1 code => exact load (.inr ⟨sym, nm1, code, rfl⟩)
  | encSym sym => exact emits (encCommand_out_length fun _ => encodeSymbol_out_length sym hinv)
  | encFlush => exact emits (encCommand_out_length fun _ => flush_out_length s.enc)
  | decInit | nmLeaf | nmInt | decStart | decByte | decEnd => exact dec rfl

/-! ### The table loads of a run -/

/-- A run of two stretches of commands. -/
theorem does_writes_append {cmds : List Instr} {s t : State} (h : s.does (writes cmds) = .next t)
    (cmds' : List Instr) : s.does (writes (cmds ++ cmds')) = t.does (writes cmds') := by
  rw [writes, List.map_append]
  exact does_append h

/-- A command of ENC keeps the invariant of ENC. -/
theorem Enc.Inv.exec {i : Instr} (hi : i.port = .enc) {s t : State} (h : s.enc.Inv)
    (ht : exec i s = .next t) : t.enc.Inv :=
  h.move (acceptWord_enc_move ((acceptWord_of_decode (decode_eq_some_iff.2 ⟨hi, rfl⟩) s).trans ht))

/-- A list of loads keeps the invariant of ENC and changes nothing outside ENC. -/
theorem does_loads {loads : List Instr} (hl : ∀ i ∈ loads, LoadsCode i) {s u : State}
    (h : s.enc.Inv) (hu : s.does (writes loads) = .next u) :
    u.enc.Inv ∧ u = { s with enc := u.enc } := by
  induction loads generalizing s with
  | nil =>
    obtain rfl : s = u := by simpa [writes] using hu
    exact ⟨h, rfl⟩
  | cons i loads ih =>
    have hi := hl i (by simp)
    obtain ⟨e, he⟩ := hi.exec_eq s
    rw [does_writes_cons he] at hu
    exact ih (s := { s with enc := e }) (fun j hj => hl j (by simp [hj])) (h.exec hi.port he) hu

/-! ### The symbols of a run -/

/-- The `ENC_SYM` commands of symbols that all have codes pack the concatenated codes (R115). -/
theorem does_encSyms {x : List Symbol} {s : State} (hfree : s.enc.Free)
    (hp : s.enc.phase = .load ∨ s.enc.phase = .run) (hx : ∀ y ∈ x, s.enc.code y ≠ []) :
    ∃ t out, s.does (writes (x.map .encSym)) = .next t ∧
      (t.enc.phase = .load ∨ t.enc.phase = .run) ∧ Packed (x.flatMap s.enc.code) out s t := by
  induction x generalizing s with
  | nil => exact ⟨s, [], rfl, hp, .refl hfree⟩
  | cons y x ih =>
    obtain ⟨t, out, hexec, hrun, hpacked⟩ := exec_encSym_of_code hfree hp (hx y (by simp))
    obtain ⟨u, out', hu, hpu, hpacked'⟩ := ih hpacked.free (.inr hrun)
      fun z hz => hpacked.code z ▸ hx z (by simp [hz])
    rw [funext hpacked.code] at hpacked'
    exact ⟨u, out ++ out', (does_writes_cons hexec _).trans hu, hpu, hpacked.trans hpacked'⟩

/-! ### The bytes of a run as bits (R93) -/

/-- Bit `8 k + j` of a stretch of payload is bit `7 - j` of its byte `k` (R63, R93). -/
theorem flatMap_byteBits_getElem? {out : List Byte} {k j : Nat} (hk : k < out.length) (hj : j < 8) :
    (out.flatMap byteBits)[8 * k + j]? = some ((out.getD k 0).getLsbD (7 - j)) := by
  induction out generalizing k with
  | nil => simp at hk
  | cons v out ih =>
    rw [List.flatMap_cons]
    cases k with
    | zero =>
      rw [List.getElem?_append_left (by simp; omega)]
      simp [byteBits, hj]
    | succ k =>
      rw [List.getElem?_append_right (by simp; omega), byteBits_length,
        show 8 * (k + 1) + j - 8 = 8 * k + j by omega, ih (by simpa using hk)]
      rfl

theorem Enc.pending_of_nb_zero {e : Enc} (h : e.nb = 0) : e.pending = [] := by
  simp [Enc.pending, h]

/-- The partial byte is the pending bits and then zeros (R30). -/
theorem Enc.Free.byteBits_acc {e : Enc} (h : e.Free) :
    byteBits e.acc = e.pending ++ List.replicate (8 - e.nb.toNat) false := by
  have hnb := e.nb.isLt
  refine List.ext_getElem (by simp [Enc.pending_length]; omega) fun j hj _ => ?_
  rw [byteBits_length] at hj
  by_cases hlt : j < e.nb.toNat
  · rw [List.getElem_append_left (by rwa [Enc.pending_length])]
    simp [Enc.pending]
  · rw [List.getElem_append_right (by rw [Enc.pending_length]; omega), List.getElem_replicate]
    simp only [byteBits, List.getElem_map, List.getElem_range]
    exact h (7 - j) (by omega)

/-- What `ENC_FLUSH` emits is the pending bits and then as many zeros as the pad count says (R116). -/
theorem Enc.Free.flush_out {e : Enc} (h : e.Free) :
    (if e.nb = 0 then [] else [e.acc]).flatMap byteBits =
      e.pending ++ List.replicate (padOf e.nb).toNat false := by
  rw [padOf_toNat]
  split
  · next h0 => simp [Enc.pending_of_nb_zero h0, h0]
  · next h0 =>
    have hpos : e.nb.toNat ≠ 0 := BitVec.toNat_ne_iff_ne.2 h0
    rw [List.flatMap_singleton, h.byteBits_acc, Nat.mod_eq_of_lt (by omega)]

/-- Bytes that are the bits `bs` and then fewer than eight zeros are the payload of `bs` with its pad
count (R93). -/
theorem payload_of_padded {bs : Bits} {out : List Byte} {pad : Nat} (hpad : pad < 8)
    (h : out.flatMap byteBits = bs ++ List.replicate pad false) :
    out.length = (bs.length + 7) / 8 ∧
      (∀ k j, k < out.length → j < 8 →
        (out.getD k 0).getLsbD (7 - j) = bs.getD (8 * k + j) false) ∧
      pad = (8 - bs.length % 8) % 8 ∧ 8 * out.length - pad = bs.length := by
  have hlen := congrArg List.length h
  rw [flatMap_byteBits_length, List.length_append, List.length_replicate] at hlen
  refine ⟨by omega, fun k j hk hj => ?_, by omega, by omega⟩
  have hbit := flatMap_byteBits_getElem? hk hj
  rw [h] at hbit
  by_cases hlt : 8 * k + j < bs.length
  · rw [List.getElem?_append_left hlt] at hbit
    simp [List.getD_eq_getElem?_getD, hbit]
  · rw [List.getElem?_append_right (by omega), List.getElem?_replicate_of_lt (by omega)] at hbit
    rw [← Option.some.inj hbit, List.getD_eq_default _ _ (by omega)]

/-- The symbols and the flush of a run: the bytes emitted are the bits pending before, the
concatenated codes and as many zeros as the pad count says (R115, R116). -/
theorem does_encSyms_encFlush {x : List Symbol} {s : State} (hfree : s.enc.Free)
    (hp : s.enc.phase = .load ∨ s.enc.phase = .run) (hx : ∀ y ∈ x, s.enc.code y ≠ []) :
    ∃ pad out,
      s.does (writes (x.map .encSym ++ [.encFlush])) =
        .next { s with enc := { s.enc with pad := pad, acc := 0, nb := 0, phase := .done },
                       eout := s.eout ++ out } ∧
      out.flatMap byteBits =
        s.enc.pending ++ x.flatMap s.enc.code ++ List.replicate pad.toNat false := by
  obtain ⟨t, out, ht, hpt, hpacked⟩ := does_encSyms hfree hp hx
  refine ⟨padOf t.enc.nb, out ++ if t.enc.nb = 0 then [] else [t.enc.acc], ?_, ?_⟩
  · rw [does_writes_append ht, does_writes_cons (exec_encFlush_of_accepted hpt), hpacked.frame]
    simp [writes]
  · rw [List.flatMap_append, hpacked.free.flush_out, ← List.append_assoc, hpacked.stream]

/-- Settles O46: the loads leave a table and no pending bit, the symbols pack their codes, and the
flush fills the last byte with zeros. -/
theorem encoderRunPacksTheCodes : Obligations.EncoderRunPacksTheCodes := by
  intro s u loads x hloads hu hp hx
  have hinit : exec .encInit s = .next s.initEnc := rfl
  obtain ⟨hinv, hframe⟩ := does_loads hloads (s := s.initEnc) Enc.Inv.reset
    ((does_writes_cons hinit loads).symm.trans hu)
  have hempty := Enc.pending_of_nb_zero (hinv.flushed (.inl hp))
  obtain ⟨pad, out, hrun, hbits⟩ := does_encSyms_encFlush hinv.free (.inl hp) hx
  rw [hempty, List.nil_append] at hbits
  obtain ⟨hlen, hbit, hpad, htotal⟩ := payload_of_padded pad.isLt hbits
  have hdoes := (does_writes_append hu _).trans hrun
  rw [← List.append_assoc] at hdoes
  refine ⟨_, out, hdoes, ?_, hlen, hbit, hpad, htotal, rfl, rfl, ?_, ?_, ?_⟩ <;> rw [hframe] <;> rfl

end Sys2Proof.Machine

/-! PROOFS of the decoder statements (spec/41_decoder.md): what one bit and one command of DEC do in
each phase, how many symbols a command emits, and what a whole run of DEC emits. -/

namespace Sys2Proof.Machine

/-! ### The commands of DEC by phase (R148) -/

theorem afterDec_raise (c : Cause) (s : State) :
    s.afterDec (s.dec.raise c) = { s with dec := { s.dec with phase := .fault, cause := c } } := by
  simp [State.afterDec]

section

variable {r : Dec → Effect Dec} {s : State}

theorem decCommand_whileLoading_of_accepted (hp : s.dec.phase = .load) :
    decCommand whileLoading r s = .next (s.afterDec (r s.dec)) := by
  simp [decCommand_eq, hp, whileLoading]

theorem decCommand_whileLoading_of_rejected (hp : s.dec.phase = .run ∨ s.dec.phase = .done) :
    decCommand whileLoading r s =
      .next { s with dec := { s.dec with phase := .fault, cause := .protocol } } := by
  rw [← afterDec_raise]
  rcases hp with hp | hp <;> simp [decCommand_eq, hp, whileLoading]

theorem decCommand_whileRunning_of_accepted (hp : s.dec.phase = .run) :
    decCommand whileRunning r s = .next (s.afterDec (r s.dec)) := by
  simp [decCommand_eq, hp, whileRunning]

theorem decCommand_whileRunning_of_rejected (hp : s.dec.phase = .load ∨ s.dec.phase = .done) :
    decCommand whileRunning r s =
      .next { s with dec := { s.dec with phase := .fault, cause := .protocol } } := by
  rw [← afterDec_raise]
  rcases hp with hp | hp <;> simp [decCommand_eq, hp, whileRunning]

theorem decCommand_of_fault {a : Phase → Bool} (hp : s.dec.phase = .fault) :
    decCommand a r s = .next s := by
  rw [decCommand, if_pos hp]

/-- A command of DEC emits no more than its own rule. -/
theorem decCommand_out_length {a : Phase → Bool} {n : Nat} (hr : (r s.dec).out.length ≤ n) :
    ∃ t, decCommand a r s = .next t ∧ t.dout.length ≤ s.dout.length + n := by
  refine ⟨_, decCommand_eq a r s, ?_⟩
  rw [State.afterDec_dout, List.length_append, Nat.add_le_add_iff_left]
  split
  · simp
  · split
    · exact hr
    · simp

end

/-! ### `DEC_INIT` (R142) -/

/-- The only word that takes DEC out of DONE and FAULT is `DEC_INIT` (R142, R225, R233). -/
theorem DecMove.init_of_left {w : Word} {d d' : Dec} (hm : DecMove w d d')
    (hp : d.phase = .done ∨ d.phase = .fault) :
    d'.phase = .done ∨ d'.phase = .fault ∨ decode .dec w = some .decInit := by
  cases hm with
  | ignored hf => exact .inr (.inl hf)
  | init hw => exact .inr (.inr hw)
  | rejected c _ _ => exact .inr (.inl rfl)
  | leaf _ _ _ hl | int _ _ _ _ hl | start _ _ _ hl | byte _ _ hl | finish _ hl => simp [hl] at hp

/-- Settles O24: `DEC_INIT` writes the reset state of DEC, and no other move leaves DONE or
FAULT. -/
theorem decInitResult : Obligations.DecInitResult := by
  refine ⟨decode_eq_some_iff.2 ⟨rfl, rfl⟩,
    fun s => ⟨s.initDec, rfl, rfl, rfl, Dec.node_reset, rfl, rfl, rfl, rfl, rfl, rfl, rfl⟩, ?_⟩
  intro p w s t rest h hp
  cases p with
  | enc =>
    have hdec : t.dec = s.dec :=
      (State.side_dec_eq_iff.1 (acceptWord_side_of_ne (q := .dec) (by decide) h)).1
    rw [hdec]
    exact hp.imp_right .inl
  | dec =>
    rcases (acceptWord_dec_move h).init_of_left hp with hd | hf | hw
    · exact .inl hd
    · exact .inr (.inl hf)
    · exact .inr (.inr ⟨rfl, (decode_eq_some_iff.1 hw).2⟩)

/-! ### `NM_LEAF` (R143) and `NM_INT` (R144) -/

theorem Dec.setNode_setNode_same (d : Dec) (idx : NodeIdx) (n : NodeEntry) :
    (d.setNode idx n).setNode idx n = d.setNode idx n := by
  simp only [Dec.setNode, Memory.write_write_same]

theorem loadNode_of_load (idx : NodeIdx) (n : NodeEntry) {s : State} (hp : s.dec.phase = .load) :
    decCommand whileLoading (loadNode idx n) s = .next { s with dec := s.dec.setNode idx n } := by
  rw [decCommand_whileLoading_of_accepted hp]
  simp [loadNode, State.afterDec]

/-- A node load in LOAD writes one entry and nothing else, and a second one changes nothing. -/
theorem loadNode_result (idx : NodeIdx) (n : NodeEntry) {s : State} (hp : s.dec.phase = .load) :
    ∃ t, decCommand whileLoading (loadNode idx n) s = .next t ∧
      t.dec.node idx = n ∧ (∀ j, j ≠ idx → t.dec.node j = s.dec.node j) ∧
      t = { s with dec := { s.dec with nm := t.dec.nm } } ∧
      decCommand whileLoading (loadNode idx n) t = .next t := by
  refine ⟨_, loadNode_of_load idx n hp, by simp, fun j hj => by simp [hj], rfl, ?_⟩
  rw [loadNode_of_load idx n (by exact hp)]
  simp only [Dec.setNode_setNode_same]

/-- Settles O25: the word is the picture of format L, and the command is a node load. -/
theorem nmLeafResult : Obligations.NmLeafResult := fun idx sym _ =>
  ⟨decode_eq_some_iff.2 ⟨rfl, (formatL_eq_or 9 idx sym).symm⟩, loadNode_result idx (.leaf sym),
    decCommand_whileLoading_of_rejected⟩

/-- Settles O26: the word is the picture of format N, and the command is a node load. -/
theorem nmIntResult : Obligations.NmIntResult := fun idx left right _ =>
  ⟨decode_eq_some_iff.2 ⟨rfl, (formatN_eq_or 10 idx left right).symm⟩,
    loadNode_result idx (.int left right), decCommand_whileLoading_of_rejected⟩

/-! ### `DEC_START` (R145) -/

theorem exec_decStart_of_load (root : NodeIdx) (pad : Pad) {s : State} (hp : s.dec.phase = .load) :
    exec (.decStart root pad) s =
      .next { s with dec := { s.dec with root := root, cur := root, padr := pad,
                                         dstate := .atRoot, holdv := false, phase := .run } } := by
  rw [exec_decStart, decCommand_whileLoading_of_accepted hp]
  simp [startReading, State.afterDec]

/-- Settles O27: the word is the picture of format T, and the rule writes the registers named. -/
theorem decStartResult : Obligations.DecStartResult := fun root pad _ =>
  ⟨decode_eq_some_iff.2 ⟨rfl, (formatT_eq_or 11 root pad).symm⟩, exec_decStart_of_load root pad,
    decCommand_whileLoading_of_rejected⟩

/-! ### One bit (R141) -/

section

variable {b : Bool} {d : Dec}

theorem stepBit_of_not_int (h : ∀ l r, d.node d.cur ≠ .int l r) :
    stepBit b d = d.raise .treeInvalid := by
  rcases stepBit_cases b d with ⟨hs, -⟩ | ⟨l, r, _, hcur, -, -⟩ | ⟨l, r, _, _, hcur, -, -⟩
  · exact hs
  · exact absurd hcur (h l r)
  · exact absurd hcur (h l r)

variable {l r : NodeIdx} (hcur : d.node d.cur = .int l r)

include hcur

theorem stepBit_of_invalid_child (h : d.node (childOf l r b) = .invalid) :
    stepBit b d = d.raise .treeInvalid := by
  simp [stepBit, hcur, h]

theorem stepBit_of_leaf_child {sym : Symbol} (h : d.node (childOf l r b) = .leaf sym) :
    stepBit b d = .ran { d with cur := d.root, dstate := .atRoot } [sym] := by
  simp [stepBit, hcur, h]

theorem stepBit_of_int_child {l' r' : NodeIdx} (h : d.node (childOf l r b) = .int l' r') :
    stepBit b d = .ran { d with cur := childOf l r b, dstate := .descending } [] := by
  simp [stepBit, hcur, h]

end

/-- Settles O28: `step_bit` by the current entry and the child that the bit selects. -/
theorem stepBitFollowsTheSelectedChild : Obligations.StepBitFollowsTheSelectedChild := fun _ _ =>
  ⟨stepBit_of_not_int, fun _ _ hcur => ⟨stepBit_of_invalid_child hcur,
    fun _ => stepBit_of_leaf_child hcur, fun _ _ => stepBit_of_int_child hcur⟩⟩

/-! ### The bits of one byte (R150) -/

theorem Effect.andThen_idle {σ : Type} (f : Effect σ) : (f.andThen fun u => .ran u []) = f := by
  cases f <;> simp

/-- A stretch that emits nothing adds nothing to what was emitted before it. -/
theorem Effect.andThen_out_of_silent {σ : Type} (f : Effect σ) {g : σ → Effect σ}
    (hg : ∀ u, (g u).out = []) : (f.andThen g).out = f.out := by
  cases f <;> simp [hg]

theorem stepBits_singleton (b : Bool) (d : Dec) : stepBits [b] d = stepBit b d :=
  Effect.andThen_idle (stepBit b d)

theorem byteBits_take_succ (v : Byte) {k : Nat} (hk : k < 8) :
    (byteBits v).take (k + 1) = (byteBits v).take k ++ [v.getLsbD (7 - k)] := by
  have hbit : (byteBits v)[k]'(by simpa using hk) = v.getLsbD (7 - k) := by simp [byteBits]
  rw [← hbit, List.take_append_getElem]

theorem consumeBits_zero (v : Byte) (d : Dec) : consumeBits v 0 d = .ran d [] := rfl

theorem consumeBits_succ (v : Byte) {k : Nat} (hk : k < 8) (d : Dec) :
    consumeBits v (k + 1) d = (consumeBits v k d).andThen (stepBit (v.getLsbD (7 - k))) := by
  rw [consumeBits, byteBits_take_succ v hk, stepBits_append, funext (stepBits_singleton _)]
  rfl

theorem consumeBits_whole (v : Byte) (d : Dec) : consumeBits v 8 d = stepBits (byteBits v) d := rfl

theorem consumeBits_out_length (v : Byte) (k : Nat) (d : Dec) :
    (consumeBits v k d).out.length ≤ k :=
  (stepBits_out_length _ d).trans (List.length_take_le k _)

/-- Settles O29: one bit more is one `step_bit` more, unless a fault came before. -/
theorem consumeBitsStopsAtTheFirstFault : Obligations.ConsumeBitsStopsAtTheFirstFault := by
  refine fun v d => ⟨consumeBits_zero v d, fun k hk => ⟨fun u o h => ?_, fun u o u' o' h h' => ?_,
    fun u o u' o' h h' => ?_, consumeBits_out_length v (k + 1) d⟩⟩
  · rw [consumeBits_succ v hk, h, Effect.andThen_raised]
  · rw [consumeBits_succ v hk, h, Effect.andThen_ran, h', Effect.after_ran]
  · rw [consumeBits_succ v hk, h, Effect.andThen_ran, h', Effect.after_raised]

/-! ### The rule of `DEC_BYTE` (R146) -/

section

variable {d : Dec} (byte : Byte)

theorem takeByte_of_unheld (h : d.holdv = false) :
    takeByte byte d = .ran { d with hold := byte, holdv := true } [] := by
  simp [takeByte, h]

theorem takeByte_of_ran (h : d.holdv = true) {u : Dec} {out : List Byte}
    (hw : stepBits (byteBits d.hold) d = .ran u out) :
    takeByte byte d = .ran { u with hold := byte, holdv := true } out := by
  simp [takeByte, h, consumeBits_whole, hw]

theorem takeByte_of_raised (h : d.holdv = true) {u : Dec} {out : List Byte}
    (hw : stepBits (byteBits d.hold) d = .raised u out) : takeByte byte d = .raised u out := by
  simp [takeByte, h, consumeBits_whole, hw]

theorem takeByte_out_length (d : Dec) : (takeByte byte d).out.length ≤ 8 := by
  rw [takeByte, Effect.andThen_out_of_silent _ fun _ => rfl]
  split
  · exact consumeBits_out_length d.hold 8 d
  · simp

end

/-- Settles O30: the rule of `DEC_BYTE` by what is held and how the walk over it ends; a walk
changes only the position, DSTATE and, on a fault, the flags. -/
theorem decByteResult : Obligations.DecByteResult := by
  refine fun byte s => ⟨decode_eq_some_iff.2 ⟨rfl, (formatS_eq_or 12 byte).symm⟩, fun hp hv => ?_,
    fun hp hv d out hw => ?_, fun hp hv d out hw => ?_, decCommand_whileRunning_of_rejected⟩ <;>
    rw [exec_decByte, decCommand_whileRunning_of_accepted hp]
  · rw [takeByte_of_unheld byte hv]
    simp [State.afterDec]
  · rw [takeByte_of_ran byte hv hw, stepBits_ran_eq hw]
    simp [State.afterDec, hv]
  · rw [takeByte_of_raised byte hv hw, stepBits_raised_eq hw]
    rfl

/-! ### The rule of `DEC_END` (R147) -/

section

variable {d : Dec}

theorem endAtRoot_of_atRoot (h : d.dstate = .atRoot) :
    endAtRoot d = .ran { d with phase := .done } [] := by
  simp [endAtRoot, h]

theorem endAtRoot_of_descending (h : d.dstate = .descending) :
    endAtRoot d = d.raise .truncated := by
  simp [endAtRoot, h]

theorem endAtRoot_out (d : Dec) : (endAtRoot d).out = [] := by
  cases h : d.dstate with
  | atRoot => rw [endAtRoot_of_atRoot h, Effect.out_ran]
  | descending => rw [endAtRoot_of_descending h, Dec.raise_out]

theorem endReading_of_ran (h : d.holdv = true) {u : Dec} {out : List Byte}
    (hw : stepBits ((byteBits d.hold).take (8 - d.padr.toNat)) d = .ran u out) :
    endReading d = (endAtRoot { u with holdv := false }).after out := by
  simp [endReading, takeLastByte, h, consumeBits, dataBits, hw]

theorem endReading_of_raised (h : d.holdv = true) {u : Dec} {out : List Byte}
    (hw : stepBits ((byteBits d.hold).take (8 - d.padr.toNat)) d = .raised u out) :
    endReading d = .raised u out := by
  simp [endReading, takeLastByte, h, consumeBits, dataBits, hw]

theorem endReading_of_padded_nothing (h : d.holdv = false) (hpad : d.padr ≠ 0) :
    endReading d = d.raise .padInvalid := by
  rw [endReading, takeLastByte, if_neg (by simp [h]), if_pos hpad]
  rfl

theorem endReading_of_nothing (h : d.holdv = false) (hpad : d.padr = 0) :
    endReading d = endAtRoot d := by
  simp [endReading, takeLastByte, h, hpad]

theorem takeLastByte_out_length (d : Dec) : (takeLastByte d).out.length ≤ 8 - d.padr.toNat := by
  unfold takeLastByte
  split
  · rw [Effect.andThen_out_of_silent _ fun _ => rfl]
    exact consumeBits_out_length d.hold (dataBits d.padr) d
  · split <;> simp

theorem endReading_out_length (d : Dec) : (endReading d).out.length ≤ 8 - d.padr.toNat := by
  rw [endReading, Effect.andThen_out_of_silent _ endAtRoot_out]
  exact takeLastByte_out_length d

end

/-- Settles O31: the rule of `DEC_END` by what is held, how the walk over it ends, and DSTATE. -/
theorem decEndResult : Obligations.DecEndResult := by
  refine ⟨decode_eq_some_iff.2 ⟨rfl, rfl⟩, fun s => ⟨
    fun hp hv d out hw => ⟨fun hd => ?_, fun hd => ?_⟩,
    fun hp hv d out hw => ?_, fun hp hv hpad => ?_, fun hp hv hpad => ⟨fun hd => ?_, fun hd => ?_⟩,
    decCommand_whileRunning_of_rejected⟩⟩ <;>
    rw [exec_decEnd, decCommand_whileRunning_of_accepted hp]
  · rw [endReading_of_ran hv hw, endAtRoot_of_atRoot (by exact hd), stepBits_ran_eq hw, hd]
    simp [State.afterDec]
  · rw [endReading_of_ran hv hw, endAtRoot_of_descending (by exact hd), stepBits_ran_eq hw, hd]
    simp [State.afterDec]
  · rw [endReading_of_raised hv hw, stepBits_raised_eq hw]
    rfl
  · rw [endReading_of_padded_nothing hv hpad, afterDec_raise]
  · rw [endReading_of_nothing hv hpad, endAtRoot_of_atRoot hd]
    simp [State.afterDec]
  · rw [endReading_of_nothing hv hpad, endAtRoot_of_descending hd, afterDec_raise]

/-! ### What a walk depends on -/

/-- The two units agree on all that a walk reads: the node memory, the root, the position and DSTATE
(R141). -/
structure Dec.SamePlace (d d' : Dec) : Prop where
  nm : d'.nm = d.nm
  root : d'.root = d.root
  cur : d'.cur = d.cur
  dstate : d'.dstate = d.dstate

/-- Two stretches that emitted the same symbols, ended both in a fault or neither, and left units at
the same place. -/
inductive Alike : Effect Dec → Effect Dec → Prop where
  | ran {u u' : Dec} (h : u.SamePlace u') (out : List Byte) : Alike (.ran u out) (.ran u' out)
  | raised {u u' : Dec} (h : u.SamePlace u') (out : List Byte) :
      Alike (.raised u out) (.raised u' out)

theorem Alike.after {f f' : Effect Dec} (h : Alike f f') (out : List Byte) :
    Alike (f.after out) (f'.after out) := by
  cases h with
  | ran h o => exact .ran h (out ++ o)
  | raised h o => exact .raised h (out ++ o)

theorem Alike.andThen {f f' : Effect Dec} {g : Dec → Effect Dec} (h : Alike f f')
    (hg : ∀ {u u'}, u.SamePlace u' → Alike (g u) (g u')) :
    Alike (f.andThen g) (f'.andThen g) := by
  cases h with
  | ran h o => exact (hg h).after o
  | raised h o => exact .raised h o

/-- One bit does the same to units at the same place (R141). -/
theorem Dec.SamePlace.bit_alike {d d' : Dec} (h : d.SamePlace d') (b : Bool) :
    Alike (stepBit b d) (stepBit b d') := by
  obtain ⟨hnm, hroot, hcur, hdstate⟩ := h
  have hnode (i : NodeIdx) : d'.node i = d.node i := Dec.node_of_nm hnm i
  have hat : d'.node d'.cur = d.node d.cur := by rw [hnode, hcur]
  rcases stepBit_cases b d with ⟨hs, hinv⟩ | ⟨l, r, sym, hc, hn, hs⟩ | ⟨l, r, l', r', hc, hn, hs⟩
  · have hs' : stepBit b d' = d'.raise .treeInvalid := by
      by_cases hint : ∃ l r, d.node d.cur = .int l r
      · obtain ⟨l, r, hlr⟩ := hint
        exact stepBit_of_invalid_child (hat.trans hlr) ((hnode _).trans (hinv l r hlr))
      · exact stepBit_of_not_int fun l r hlr => hint ⟨l, r, hat.symm.trans hlr⟩
    rw [hs, hs']
    exact .raised (by exact ⟨hnm, hroot, hcur, hdstate⟩) []
  · rw [hs, stepBit_of_leaf_child (hat.trans hc) ((hnode _).trans hn)]
    exact .ran (by exact ⟨hnm, hroot, hroot, rfl⟩) [sym]
  · rw [hs, stepBit_of_int_child (hat.trans hc) ((hnode _).trans hn)]
    exact .ran (by exact ⟨hnm, hroot, rfl, rfl⟩) []

theorem Dec.SamePlace.walk_alike {d d' : Dec} (h : d.SamePlace d') (bs : Bits) :
    Alike (stepBits bs d) (stepBits bs d') := by
  induction bs generalizing d d' with
  | nil => exact .ran h []
  | cons b bs ih => exact (h.bit_alike b).andThen ih

section

variable {d d' u : Dec} {bs : Bits} {out : List Byte} (h : d.SamePlace d')

include h

/-- A walk that runs runs from every unit at the same place, and moves it alike. -/
theorem Dec.SamePlace.walk_ran (hw : stepBits bs d = .ran u out) :
    stepBits bs d' = .ran { d' with cur := u.cur, dstate := u.dstate } out := by
  have halike := h.walk_alike bs
  rw [hw] at halike
  cases hw' : stepBits bs d' with
  | ran u' out' =>
    rw [hw'] at halike
    cases halike with
    | ran hend => rw [stepBits_ran_eq hw', hend.cur, hend.dstate]
  | raised u' out' =>
    rw [hw'] at halike
    cases halike

/-- A walk that faults faults from every unit at the same place, after the same symbols. -/
theorem Dec.SamePlace.walk_raised (hw : stepBits bs d = .raised u out) :
    stepBits bs d' = .raised { d' with cur := u.cur, dstate := u.dstate, phase := .fault,
                                       cause := .treeInvalid } out := by
  have halike := h.walk_alike bs
  rw [hw] at halike
  cases hw' : stepBits bs d' with
  | ran u' out' =>
    rw [hw'] at halike
    cases halike
  | raised u' out' =>
    rw [hw'] at halike
    cases halike with
    | raised hend => rw [stepBits_raised_eq hw', hend.cur, hend.dstate]

end

/-! ### The pad bits (R154) -/

theorem byteBits_take_congr {v v' : Byte} {p : Nat}
    (h : ∀ j, p ≤ j → v.getLsbD j = v'.getLsbD j) :
    (byteBits v).take (8 - p) = (byteBits v').take (8 - p) := by
  refine List.ext_getElem (by simp) fun j hj _ => ?_
  rw [List.length_take] at hj
  simp only [List.getElem_take, byteBits, List.getElem_map, List.getElem_range]
  exact h (7 - j) (by omega)

/-- From `f` to `f'` the byte in the hold register is `v` instead, and nothing else differs. -/
def HoldsInstead (v : Byte) (f f' : Effect Dec) : Prop :=
  f'.unit = { f.unit with hold := v } ∧ f'.out = f.out

theorem endAtRoot_holdsInstead (v : Byte) (d : Dec) :
    HoldsInstead v (endAtRoot d) (endAtRoot { d with hold := v }) := by
  dsimp only [HoldsInstead, endAtRoot]
  split <;> exact ⟨rfl, rfl⟩

/-- The rule of `DEC_END` uses the byte held only through its data bits. -/
theorem endReading_holdsInstead {v : Byte} {d : Dec}
    (h : ∀ j, d.padr.toNat ≤ j → d.hold.getLsbD j = v.getLsbD j) :
    HoldsInstead v (endReading d) (endReading { d with hold := v }) := by
  have hbits := byteBits_take_congr h
  have hplace : d.SamePlace { d with hold := v } := ⟨rfl, rfl, rfl, rfl⟩
  rcases Bool.eq_false_or_eq_true d.holdv with hv | hv
  · cases hw : stepBits ((byteBits d.hold).take (8 - d.padr.toNat)) d with
    | ran u out =>
      have hw' := hplace.walk_ran hw
      rw [hbits] at hw'
      obtain ⟨hunit, hout⟩ := endAtRoot_holdsInstead v { u with holdv := false }
      rw [endReading_of_ran hv hw, endReading_of_ran (by exact hv) hw']
      rw [stepBits_ran_eq hw] at hunit hout ⊢
      exact ⟨by simpa using hunit, by simpa using hout⟩
    | raised u out =>
      have hw' := hplace.walk_raised hw
      rw [hbits] at hw'
      rw [endReading_of_raised hv hw, endReading_of_raised (by exact hv) hw', stepBits_raised_eq hw]
      exact ⟨rfl, rfl⟩
  · by_cases hpad : d.padr = 0
    · rw [endReading_of_nothing hv hpad, endReading_of_nothing (d := { d with hold := v }) hv hpad]
      exact endAtRoot_holdsInstead v d
    · rw [endReading_of_padded_nothing hv hpad,
        endReading_of_padded_nothing (d := { d with hold := v }) hv hpad]
      exact ⟨rfl, rfl⟩

/-- Settles O32: in RUN by the rule of `DEC_END`; in the other phases no rule looks at the byte. -/
theorem padBitsAreNotInspected : Obligations.PadBitsAreNotInspected := by
  intro s v h
  refine ⟨_, decCommand_eq whileRunning endReading s, ?_⟩
  rw [exec_decEnd, decCommand_eq]
  obtain ⟨hunit, hout⟩ := endReading_holdsInstead h
  cases hp : s.dec.phase with
  | run => simp [whileRunning, State.afterDec, hunit, hout]
  | load | done | fault => simp [whileRunning, State.afterDec]

/-! ### How many symbols one command emits (R147, R150) -/

/-- Settles O33: `DEC_BYTE` and `DEC_END` by the symbols of their own rules; the other rules are
silent, and a command of ENC leaves `DOUT`. -/
theorem symbolsEmittedByOneDecCommand : Obligations.SymbolsEmittedByOneDecCommand := by
  intro i s
  have enc (h : i.port = .enc) : ∃ t, exec i s = .next t ∧ t.dout.length ≤ s.dout.length := by
    obtain ⟨F, hF⟩ := exec_enc h
    exact ⟨_, hF s, Nat.le_refl _⟩
  cases i with
  | decInit => exact ⟨s.initDec, rfl, Nat.le_refl _⟩
  | nmLeaf | nmInt | decStart => exact decCommand_out_length (Nat.le_refl 0)
  | decByte v => exact decCommand_out_length (takeByte_out_length v s.dec)
  | decEnd => exact decCommand_out_length (endReading_out_length s.dec)
  | encInit | ctClr | ctApp | encSym | encFlush => exact enc rfl

/-! ### The node loads of a run -/

/-- One of the two commands that load the node memory (R50). -/
def LoadsNode (i : Instr) : Prop :=
  (∃ idx sym, i = .nmLeaf idx sym) ∨ ∃ idx l r, i = .nmInt idx l r

theorem LoadsNode.exec_eq {i : Instr} (h : LoadsNode i) {s : State} (hp : s.dec.phase = .load) :
    ∃ idx n, exec i s = .next { s with dec := s.dec.setNode idx n } := by
  rcases h with ⟨idx, sym, rfl⟩ | ⟨idx, l, r, rfl⟩
  · exact ⟨idx, .leaf sym, loadNode_of_load idx _ hp⟩
  · exact ⟨idx, .int l r, loadNode_of_load idx _ hp⟩

/-- A list of node loads in LOAD changes the node memory only. -/
theorem does_nodeLoads {loads : List Instr} (hl : ∀ i ∈ loads, LoadsNode i) {s u : State}
    (hp : s.dec.phase = .load) (hu : s.does (writes loads) = .next u) :
    u = { s with dec := { s.dec with nm := u.dec.nm } } := by
  induction loads generalizing s with
  | nil =>
    obtain rfl : s = u := by simpa [writes] using hu
    rfl
  | cons i loads ih =>
    obtain ⟨idx, n, he⟩ := (hl i (by simp)).exec_eq hp
    rw [does_writes_cons he] at hu
    exact ih (s := { s with dec := s.dec.setNode idx n }) (fun j hj => hl j (by simp [hj])) hp hu

/-! ### The payload of a run -/

/-- What the `DEC_BYTE` commands of a payload and `DEC_END` do to DEC in RUN, as one effect. -/
def readPayload : List Byte → Dec → Effect Dec
  | [], d => endReading d
  | byte :: v, d => (takeByte byte d).andThen (readPayload v)

/-- `DEC_BYTE` goes on in the same phase or ends in FAULT. -/
theorem takeByte_phase (byte : Byte) (d : Dec) :
    (∃ u o, takeByte byte d = .ran u o ∧ u.phase = d.phase) ∨
    (∃ u o, takeByte byte d = .raised u o ∧ u.phase = .fault) := by
  cases hv : d.holdv with
  | false => exact .inl ⟨_, _, takeByte_of_unheld byte hv, rfl⟩
  | true =>
    rcases stepBits_flags (byteBits d.hold) d with ⟨u, o, hw, hp, -⟩ | ⟨u, o, hw, hp, -⟩
    · exact .inl ⟨_, _, takeByte_of_ran byte hv hw, hp⟩
    · exact .inr ⟨u, o, takeByte_of_raised byte hv hw, hp⟩

theorem afterDec_ran_afterDec (s : State) (u : Dec) (o : List Byte) (f : Effect Dec) :
    (s.afterDec (.ran u o)).afterDec f = s.afterDec (f.after o) := by
  simp [State.afterDec]

theorem does_payload_of_fault (v : List Byte) {s : State} (hp : s.dec.phase = .fault) :
    s.does (writes (v.map .decByte ++ [.decEnd])) = .next s := by
  induction v with
  | nil => exact does_writes_cons ((exec_decEnd s).trans (decCommand_of_fault hp)) []
  | cons byte v ih =>
    have hexec := (exec_decByte byte s).trans (decCommand_of_fault hp)
    exact (does_writes_cons hexec _).trans ih

/-- The payload and the end of a run, from RUN (R146, R147, R233). -/
theorem does_payload (v : List Byte) {s : State} (hp : s.dec.phase = .run) :
    s.does (writes (v.map .decByte ++ [.decEnd])) = .next (s.afterDec (readPayload v s.dec)) := by
  induction v generalizing s with
  | nil =>
    have hexec := (exec_decEnd s).trans (decCommand_whileRunning_of_accepted hp)
    exact does_writes_cons hexec []
  | cons byte v ih =>
    have hexec := (exec_decByte byte s).trans (decCommand_whileRunning_of_accepted hp)
    rw [List.map_cons, List.cons_append, does_writes_cons hexec, readPayload]
    rcases takeByte_phase byte s.dec with ⟨u, o, hu, hphase⟩ | ⟨u, o, hu, hphase⟩
    · rw [hu, ih (hphase.trans hp), afterDec_ran_afterDec]
      rfl
    · rw [hu, does_payload_of_fault v hphase]
      rfl

/-- How a run ends whose data bits, fed to `step_bit`, have the effect `walk` (R151). -/
structure EndsAs (walk f : Effect Dec) : Prop where
  raised : ∀ d out, walk = .raised d out →
    f.unit.phase = .fault ∧ f.unit.cause = .treeInvalid ∧ f.out = out
  ran : ∀ d out, walk = .ran d out → f.out = out ∧ (d.dstate = .atRoot → f.unit.phase = .done) ∧
    (d.dstate = .descending → f.unit.phase = .fault ∧ f.unit.cause = .truncated)

theorem EndsAs.of_raised {u u' : Dec} {out : List Byte} (hp : u'.phase = .fault)
    (hc : u'.cause = .treeInvalid) : EndsAs (.raised u out) (.raised u' out) where
  raised := fun _ _ h => ⟨hp, hc, (Effect.raised.inj h).2⟩
  ran := fun _ _ h => by simp at h

theorem EndsAs.of_endAtRoot {u u' : Dec} {out : List Byte} (h : u'.dstate = u.dstate) :
    EndsAs (.ran u out) ((endAtRoot u').after out) where
  raised := fun _ _ hw => by simp at hw
  ran := fun d o hw => by
    obtain ⟨rfl, rfl⟩ := Effect.ran.inj hw
    refine ⟨by simp [endAtRoot_out], fun hd => ?_, fun hd => ?_⟩
    · simp [endAtRoot_of_atRoot (h.trans hd)]
    · simp [endAtRoot_of_descending (h.trans hd)]

theorem EndsAs.after {walk f : Effect Dec} (h : EndsAs walk f) (out : List Byte) :
    EndsAs (walk.after out) (f.after out) := by
  cases walk with
  | ran u o =>
    obtain ⟨hout, hend⟩ := h.ran u o rfl
    refine ⟨fun _ _ hw => by simp at hw, fun d o' hw => ?_⟩
    obtain ⟨rfl, rfl⟩ := Effect.ran.inj hw
    simpa [hout] using hend
  | raised u o =>
    obtain ⟨hp, hc, hout⟩ := h.raised u o rfl
    refine ⟨fun d o' hw => ?_, fun _ _ hw => by simp at hw⟩
    obtain ⟨rfl, rfl⟩ := Effect.raised.inj hw
    simp [hp, hc, hout]

/-- With more bytes to come, all the bits of the first one are data (R93). -/
theorem dataBits_cons (w byte : Byte) (v : List Byte) (pad : Pad) :
    ((w :: byte :: v).flatMap byteBits).take (8 * (w :: byte :: v).length - pad.toNat) =
      byteBits w ++
        ((byte :: v).flatMap byteBits).take (8 * (byte :: v).length - pad.toNat) := by
  have hpad := pad.isLt
  rw [List.flatMap_cons, List.take_append, byteBits_length,
    List.take_of_length_le (by simp; omega)]
  congr 2
  simp only [List.length_cons]
  omega

/-- With a byte held, the run ends as the walk over the data bits of the byte held and the payload
does, from any unit at the same place (R151). -/
theorem readPayload_of_held (v : List Byte) {d₀ d : Dec} (hplace : d₀.SamePlace d)
    (hv : d.holdv = true) :
    EndsAs (stepBits (((d.hold :: v).flatMap byteBits).take
      (8 * (d.hold :: v).length - d.padr.toNat)) d₀) (readPayload v d) := by
  induction v generalizing d₀ d with
  | nil =>
    simp only [List.flatMap_singleton, List.length_singleton, Nat.mul_one]
    cases hw : stepBits ((byteBits d.hold).take (8 - d.padr.toNat)) d₀ with
    | ran u out =>
      rw [readPayload, endReading_of_ran hv (hplace.walk_ran hw)]
      exact .of_endAtRoot rfl
    | raised u out =>
      rw [readPayload, endReading_of_raised hv (hplace.walk_raised hw)]
      exact .of_raised rfl rfl
  | cons byte v ih =>
    rw [dataBits_cons, stepBits_append, readPayload]
    cases hw : stepBits (byteBits d.hold) d₀ with
    | ran u out =>
      have hnext : u.SamePlace
          { d with cur := u.cur, dstate := u.dstate, hold := byte, holdv := true } := by
        rw [stepBits_ran_eq hw]
        exact ⟨hplace.nm, hplace.root, rfl, rfl⟩
      rw [takeByte_of_ran byte hv (hplace.walk_ran hw), Effect.andThen_ran, Effect.andThen_ran]
      exact (ih hnext rfl).after out
    | raised u out =>
      rw [takeByte_of_raised byte hv (hplace.walk_raised hw)]
      exact .of_raised rfl rfl

/-- With nothing held, the run ends as the walk over the data bits of the payload does, unless the
payload is empty and the pad count is not 0 (R151). -/
theorem readPayload_of_unheld {v : List Byte} {d₀ d : Dec} (hplace : d₀.SamePlace d)
    (hv : d.holdv = false) (hpad : v ≠ [] ∨ d.padr = 0) :
    EndsAs (stepBits ((v.flatMap byteBits).take (8 * v.length - d.padr.toNat)) d₀)
      (readPayload v d) := by
  cases v with
  | nil =>
    rw [readPayload, endReading_of_nothing hv (hpad.resolve_left (by simp)),
      ← Effect.after_nil (endAtRoot d), List.flatMap_nil, List.take_nil, stepBits]
    exact .of_endAtRoot hplace.dstate
  | cons byte v =>
    rw [readPayload, takeByte_of_unheld byte hv, Effect.andThen_ran, Effect.after_nil]
    exact readPayload_of_held v (d := { d with hold := byte, holdv := true })
      ⟨hplace.nm, hplace.root, hplace.cur, hplace.dstate⟩ rfl

/-- A run of DEC from LOAD: `DEC_START` and then the payload. -/
theorem does_decStart_payload (root : NodeIdx) (pad : Pad) (v : List Byte) {s : State}
    (hp : s.dec.phase = .load) :
    s.does (writes (.decStart root pad :: (v.map .decByte ++ [.decEnd]))) =
      .next (s.afterDec (readPayload v
        { s.dec with root := root, cur := root, padr := pad, dstate := .atRoot, holdv := false,
                     phase := .run })) := by
  rw [does_writes_cons (exec_decStart_of_load root pad hp), does_payload v (by rfl)]
  rfl

/-- Settles O45: with nothing held, pad count 0 and DSTATE at the root, `DEC_END` ends in DONE. -/
theorem emptyPayloadDecodesToNothing : Obligations.EmptyPayloadDecodesToNothing := by
  intro root s hp
  have hdoes := does_decStart_payload root 0 [] hp
  rw [readPayload, endReading_of_nothing rfl rfl, endAtRoot_of_atRoot rfl] at hdoes
  exact ⟨_, hdoes, rfl, rfl, List.append_nil _, rfl, rfl⟩

/-- Settles O47: the loads leave LOAD and a node memory, `DEC_START` goes to the root, and the bytes
are walked one behind, so that the last one is known to be the last. -/
theorem decoderRunWalksTheDataBits : Obligations.DecoderRunWalksTheDataBits := by
  intro s u loads root pad v hloads hu
  have hinit : exec .decInit s = .next s.initDec := rfl
  have hframe := does_nodeLoads hloads (s := s.initDec) rfl
    ((does_writes_cons hinit loads).symm.trans hu)
  have hp : u.dec.phase = .load := by rw [hframe]; rfl
  have hdout : u.dout = s.dout := by rw [hframe]; rfl
  have hdoes := (does_writes_append hu _).trans (does_decStart_payload root pad v hp)
  refine ⟨_, by simpa using hdoes, by rw [hframe]; rfl, by rw [hframe]; rfl, by rw [hframe]; rfl,
    fun hnil hpad => ?_, fun hne d out => ?_⟩
  · subst hnil
    rw [readPayload, endReading_of_padded_nothing rfl hpad]
    exact ⟨rfl, rfl, by simp [hdout]⟩
  · have hplace : Dec.SamePlace { u.dec with root := root, cur := root, dstate := .atRoot }
      { u.dec with root := root, cur := root, padr := pad, dstate := .atRoot, holdv := false,
                   phase := .run } := ⟨rfl, rfl, rfl, rfl⟩
    obtain ⟨hraised, hran⟩ := readPayload_of_unheld hplace rfl hne
    refine ⟨fun hw => ?_, fun hw => ?_⟩
    · obtain ⟨hphase, hcause, hout⟩ := hraised d out hw
      exact ⟨hphase, hcause, by rw [State.afterDec_dout, hdout, hout]⟩
    · obtain ⟨hout, hroot, hdesc⟩ := hran d out hw
      exact ⟨by rw [State.afterDec_dout, hdout, hout], hroot, hdesc⟩

end Sys2Proof.Machine

/-! PROOFS of the host software statements (spec/42_host_software.md): the walk of DEC over the
codes of a tree it holds, the loads of a host's call in any order, the round trip, and the cut
payload. -/

namespace Sys2Proof.Machine

/-! ### The walk over one code (R187) -/

/-- From the position of the unit the bits lead to a leaf, at the last bit, which emits `y`. -/
def Dec.Reads (d : Dec) (c : Bits) (y : Symbol) : Prop :=
  stepBits c d = .ran { d with cur := d.root, dstate := .atRoot } [y]

theorem CodeTree.code_ne_nil_of_node {l r : CodeTree} {y : Symbol} {c : Bits}
    (hc : (y, c) ∈ (CodeTree.node l r).codes) : c ≠ [] := by
  rintro rfl
  simp [codes] at hc

section

variable {d : Dec} {a b : NodeIdx} {x : Bool} {c : Bits} {y : Symbol}
  (hcur : d.node d.cur = .int a b)

include hcur

theorem Dec.reads_leaf (h : d.node (childOf a b x) = .leaf y) : d.Reads [x] y := by
  rw [Dec.Reads, stepBits_singleton, stepBit_of_leaf_child hcur h]

theorem Dec.reads_cons {a' b' : NodeIdx} (h : d.node (childOf a b x) = .int a' b')
    (hrest : Dec.Reads { d with cur := childOf a b x, dstate := .descending } c y) :
    d.Reads (x :: c) y := by
  rw [Dec.Reads, stepBits, stepBit_of_int_child hcur h, Effect.andThen_ran, hrest, Effect.after_ran]
  rfl

/-- The bit that selects a subtree and then the code in the subtree: at a leaf the code is used
up, and an internal node is reached in DESCENDING. -/
theorem CodeTree.reads_child {t : CodeTree} (h : t.heldAt d (childOf a b x)) (hc : (y, c) ∈ t.codes)
    (ih : ∀ {d : Dec}, t.heldAt d d.cur → c ≠ [] → d.Reads c y) : d.Reads (x :: c) y := by
  cases t with
  | leaf sym =>
    obtain ⟨rfl, rfl⟩ : y = sym ∧ c = [] := by simpa [codes] using hc
    exact Dec.reads_leaf hcur h
  | node l r =>
    obtain ⟨a', b', hint, -⟩ := id h
    exact Dec.reads_cons hcur hint
      (ih (heldAt_of_nm (d := d) (by rfl) _ _ h) (code_ne_nil_of_node hc))

end

/-- A unit that holds a tree at its position reads each of the tree's codes (R187). -/
theorem CodeTree.reads_code {t : CodeTree} {d : Dec} (h : t.heldAt d d.cur) {y : Symbol} {c : Bits}
    (hc : (y, c) ∈ t.codes) (hne : c ≠ []) : d.Reads c y := by
  induction t generalizing d c with
  | leaf sym => exact absurd (by simpa [codes] using hc : y = sym ∧ c = []).2 hne
  | node l r ihl ihr =>
    obtain ⟨a, b, hcur, ha, hb⟩ := h
    simp only [codes, List.mem_append, List.mem_map, Prod.exists, Prod.mk.injEq] at hc
    rcases hc with ⟨y', c', hc', rfl, rfl⟩ | ⟨y', c', hc', rfl, rfl⟩
    · exact reads_child (x := false) hcur ha hc' fun hd => ihl hd hc'
    · exact reads_child (x := true) hcur hb hc' fun hd => ihr hd hc'

theorem HostTree.reads_code {tr : HostTree} {d : Dec} (h : tr.heldAt d d.cur) {y : Symbol}
    {c : Bits} (hc : (y, c) ∈ tr.codes) : d.Reads c y := by
  cases tr with
  | empty => simp at hc
  | single sym =>
    obtain ⟨rfl, rfl⟩ : y = sym ∧ c = [false] := by simpa [codes] using hc
    obtain ⟨a, b, hcur, hleaf, -⟩ := h
    exact Dec.reads_leaf hcur hleaf
  | full l r => exact CodeTree.reads_code h hc (CodeTree.code_ne_nil_of_node hc)

theorem HostTree.code_ne_nil {tr : HostTree} {y : Symbol} {c : Bits} (hc : (y, c) ∈ tr.codes) :
    c ≠ [] := by
  cases tr with
  | empty => simp at hc
  | single sym =>
    obtain ⟨-, rfl⟩ : y = sym ∧ c = [false] := by simpa [codes] using hc
    simp
  | full l r => exact CodeTree.code_ne_nil_of_node hc

/-! ### The walk over the codes of a sequence (R151, R195) -/

/-- The unit at the root, in AT_ROOT, as every run starts (R145). -/
def Dec.atRootOf (d : Dec) (root : NodeIdx) : Dec :=
  { d with root := root, cur := root, dstate := .atRoot }

/-- DEC, from this root, reads the code that ENC has for `y` as `y`: the two tables belong
together. -/
def Agree (e : Enc) (d : Dec) (root : NodeIdx) (y : Symbol) : Prop :=
  (d.atRootOf root).Reads (e.code y) y

/-- A tree in the node memory and its code table belong together (R195). -/
theorem HostTree.agree {tr : HostTree} {e : Enc} {d : Dec} {root : NodeIdx} (ht : tr.tabled e)
    (hh : tr.heldAt d root) {y : Symbol} (hy : y ∈ tr.symbols) : Agree e d root y :=
  HostTree.reads_code (HostTree.heldAt_of_nm (d := d) (by rfl) tr root hh) (tr.tabled_mem ht hy)

section

variable {e : Enc} {d : Dec} {root : NodeIdx}

theorem Agree.code_ne_nil {y : Symbol} (h : Agree e d root y) : e.code y ≠ [] := by
  intro hnil
  simp [Agree, Dec.Reads, hnil, stepBits] at h

/-- The codes of a sequence are read as the sequence, from the root back to the root. -/
theorem stepBits_codes {x : List Symbol} (hx : ∀ y ∈ x, Agree e d root y) :
    stepBits (x.flatMap e.code) (d.atRootOf root) = .ran (d.atRootOf root) x := by
  induction x with
  | nil => rfl
  | cons y x ih =>
    have hy : stepBits (e.code y) (d.atRootOf root) = .ran (d.atRootOf root) [y] := hx y (by simp)
    rw [List.flatMap_cons, stepBits_append, hy, Effect.andThen_ran,
      ih fun z hz => hx z (by simp [hz]), Effect.after_ran, List.singleton_append]

end

/-! ### A run of each unit on the payload of some bits -/

/-- From `s` to `u` a run of ENC emitted the payload `v` of the bits `bs`, and left DEC alone
(R119). -/
structure Encoded (bs : Bits) (v : List Byte) (s u : State) : Prop where
  phase : u.enc.phase = .done
  eout : u.eout = s.eout ++ v
  payload : v.flatMap byteBits = bs ++ List.replicate u.enc.pad.toNat false
  dec : u.dec = s.dec
  dout : u.dout = s.dout

/-- The symbols and the flush, with nothing pending before (R119). -/
theorem does_encode {x : List Symbol} {s : State} (hfree : s.enc.Free) (hnb : s.enc.nb = 0)
    (hp : s.enc.phase = .load) (hx : ∀ y ∈ x, s.enc.code y ≠ []) :
    ∃ u v, s.does (writes (x.map .encSym ++ [.encFlush])) = .next u ∧
      Encoded (x.flatMap s.enc.code) v s u := by
  obtain ⟨pad, v, hdoes, hbits⟩ := does_encSyms_encFlush hfree (.inl hp) hx
  rw [Enc.pending_of_nb_zero hnb, List.nil_append] at hbits
  exact ⟨_, v, hdoes, rfl, rfl, hbits, rfl, rfl⟩

/-- A run of DEC from LOAD ends as the walk of the data bits from the root does, unless the
payload is empty and the pad count is not 0 (R151). -/
theorem does_decode {root : NodeIdx} {pad : Pad} {v : List Byte} {s : State}
    (hp : s.dec.phase = .load) (hpad : v ≠ [] ∨ pad = 0) :
    ∃ f, s.does (writes ([.decStart root pad] ++ v.map .decByte ++ [.decEnd])) =
        .next (s.afterDec f) ∧
      EndsAs (stepBits ((v.flatMap byteBits).take (8 * v.length - pad.toNat))
        (s.dec.atRootOf root)) f :=
  ⟨_, does_decStart_payload root pad v hp,
    readPayload_of_unheld
      (d := { s.dec.atRootOf root with padr := pad, holdv := false, phase := .run })
      ⟨rfl, rfl, rfl, rfl⟩ rfl hpad⟩

theorem length_of_payload {bs : Bits} {v : List Byte} {pad : Nat}
    (h : v.flatMap byteBits = bs ++ List.replicate pad false) : 8 * v.length = bs.length + pad := by
  simpa only [flatMap_byteBits_length, List.length_append, List.length_replicate] using
    congrArg List.length h

/-- The payload of the codes of a sequence is decoded to the sequence (R195). -/
theorem does_decode_codes {e : Enc} {root : NodeIdx} {pad : Pad} {v : List Byte} {x : List Symbol}
    {s : State} (hp : s.dec.phase = .load) (hx : ∀ y ∈ x, Agree e s.dec root y)
    (hv : v.flatMap byteBits = x.flatMap e.code ++ List.replicate pad.toNat false) :
    ∃ t, s.does (writes ([.decStart root pad] ++ v.map .decByte ++ [.decEnd])) = .next t ∧
      t.dec.phase = .done ∧ t.dout = s.dout ++ x := by
  have hlen := length_of_payload hv
  have hpad : v ≠ [] ∨ pad = 0 := by
    rcases eq_or_ne v [] with rfl | hne
    · exact .inr (BitVec.eq_of_toNat_eq (by simp at hlen; simp; omega))
    · exact .inl hne
  have hdata : (v.flatMap byteBits).take (8 * v.length - pad.toNat) = x.flatMap e.code := by
    rw [hv, hlen, Nat.add_sub_cancel, List.take_left]
  obtain ⟨f, hdoes, hend⟩ := does_decode (root := root) hp hpad
  rw [hdata, stepBits_codes hx] at hend
  obtain ⟨hout, hdone, -⟩ := hend.ran _ _ rfl
  exact ⟨_, hdoes, hdone rfl, by simp [hout]⟩

/-- Settles O48: the codes that ENC packs are those that DEC reads as the sequence. -/
theorem roundTripOfLoadedTables : Obligations.RoundTripOfLoadedTables := by
  intro s root x hinv hpe hpd htables
  have hx : ∀ y ∈ x, Agree s.enc s.dec root y := by
    rcases htables with rfl | ⟨tr, htab, hheld, hmem⟩
    · simp
    · exact fun y hy => tr.agree htab hheld (hmem y hy)
  obtain ⟨u, v, hu, henc⟩ := does_encode hinv.enc.free (hinv.enc.flushed (.inl hpe)) hpe
    fun y hy => (hx y hy).code_ne_nil
  obtain ⟨t, ht, hdone, hout⟩ := does_decode_codes (s := u) (henc.dec ▸ hpd) (henc.dec ▸ hx)
    henc.payload
  exact ⟨u, t, v, hu, henc.phase, henc.eout, ht, hdone, henc.dout ▸ hout⟩

/-! ### Stretches of a walk, and where one ends (R141, R150) -/

/-- A walk that ran is the walk of each stretch of its bits, the next one from where the first
ended. -/
theorem stepBits_append_eq_ran {bs cs : Bits} {d u : Dec} {o : List Symbol}
    (h : stepBits (bs ++ cs) d = .ran u o) :
    ∃ v o₁ o₂, stepBits bs d = .ran v o₁ ∧ stepBits cs v = .ran u o₂ ∧ o = o₁ ++ o₂ := by
  rw [stepBits_append] at h
  obtain ⟨v, o₁, o₂, hv, hu⟩ := Effect.andThen_eq_ran h
  rw [hv, Effect.andThen_ran, hu, Effect.after_ran] at h
  exact ⟨v, o₁, o₂, hv, hu, (Effect.ran.inj h).2.symm⟩

/-- One bit or more without a symbol ends inside a code: only a leaf leads back to the root. -/
theorem descending_of_silent_walk {bs : Bits} {d u : Dec} (h : stepBits bs d = .ran u [])
    (hne : bs ≠ []) : u.dstate = .descending := by
  induction bs generalizing d with
  | nil => exact absurd rfl hne
  | cons b bs ih =>
    rcases stepBit_cases b d with ⟨hs, -⟩ | ⟨l, r, sym, -, -, hs⟩ | ⟨l, r, l', r', -, -, hs⟩
    · simp [stepBits, hs, Dec.raise] at h
    · obtain ⟨v, o₁, o₂, hv, -, ho⟩ := stepBits_append_eq_ran (bs := [b]) h
      rw [stepBits_singleton, hs] at hv
      obtain ⟨-, rfl⟩ := Effect.ran.inj hv
      simp at ho
    · rw [stepBits, hs, Effect.andThen_ran, Effect.after_nil] at h
      rcases eq_or_ne bs [] with rfl | hbs
      · obtain ⟨rfl, -⟩ := Effect.ran.inj h
        rfl
      · exact ih h hbs

/-- Of two walks from one place, one over more bits, that emit the same symbols, the longer one
ends in AT_ROOT only when it takes the same bits. -/
theorem eq_nil_of_same_output {bs cs : Bits} {d u w : Dec} {o : List Symbol}
    (h : stepBits bs d = .ran u o) (h' : stepBits (bs ++ cs) d = .ran w o)
    (hw : w.dstate = .atRoot) : cs = [] := by
  by_contra hne
  obtain ⟨v, o₁, o₂, hv, hcs, ho⟩ := stepBits_append_eq_ran h'
  obtain ⟨rfl, rfl⟩ := Effect.ran.inj (h.symm.trans hv)
  obtain rfl : o₂ = [] := by simpa using ho
  simp [descending_of_silent_walk hcs hne] at hw

/-- Two stretches from the start of the same bits that emit the same symbols and both end in
AT_ROOT are the same stretch. -/
theorem eq_of_same_output {bs cs ds : Bits} {d u w : Dec} {o : List Symbol} (hbs : bs <+: ds)
    (hcs : cs <+: ds) (h : stepBits bs d = .ran u o) (h' : stepBits cs d = .ran w o)
    (hu : u.dstate = .atRoot) (hw : w.dstate = .atRoot) : bs = cs := by
  rcases List.prefix_or_prefix_of_prefix hbs hcs with ⟨es, rfl⟩ | ⟨es, rfl⟩
  · rw [eq_nil_of_same_output h h' hw, List.append_nil]
  · rw [eq_nil_of_same_output h' h hu, List.append_nil]

/-! ### A payload cut by its last byte (R202) -/

/-- The data bits of a payload cut by its last byte are bits of the codes (R93). -/
theorem dataBits_of_cut {bs : Bits} {w : List Byte} {b : Byte} {pad : Nat}
    (h : (w ++ [b]).flatMap byteBits = bs ++ List.replicate pad false) :
    (w.flatMap byteBits).take (8 * w.length - pad) = bs.take (8 * w.length - pad) := by
  have hlen := length_of_payload h
  rw [List.length_append, List.length_singleton] at hlen
  calc (w.flatMap byteBits).take (8 * w.length - pad)
    _ = ((w ++ [b]).flatMap byteBits).take (8 * w.length - pad) := by
      rw [List.flatMap_append, List.take_append_of_le_length]
      rw [flatMap_byteBits_length]
      omega
    _ = bs.take (8 * w.length - pad) := by
      rw [h, List.take_append_of_le_length]
      omega

theorem flatMap_take_prefix (f : Symbol → Bits) (x : List Symbol) (n : Nat) :
    (x.take n).flatMap f <+: x.flatMap f := by
  conv_rhs => rw [← List.take_append_drop n x, List.flatMap_append]
  exact List.prefix_append _ _

/-- The first `m` bits of the codes are a number of whole codes, or their walk ends inside a
code. -/
theorem stepBits_take_codes {e : Enc} {d : Dec} {root : NodeIdx} {x : List Symbol}
    (hx : ∀ y ∈ x, Agree e d root y) (m : Nat) :
    (∃ n, (x.flatMap e.code).take m = (x.take n).flatMap e.code) ∨
    ∃ u out, stepBits ((x.flatMap e.code).take m) (d.atRootOf root) = .ran u out ∧
      u.dstate = .descending := by
  have hwalk := stepBits_codes hx
  rw [← List.take_append_drop m (x.flatMap e.code)] at hwalk
  obtain ⟨u, out, out', hu, -, hout⟩ := stepBits_append_eq_ran hwalk
  cases hstate : u.dstate with
  | descending => exact .inr ⟨u, out, hu, hstate⟩
  | atRoot =>
    have hfirst : x.take out.length = out := by simp [hout]
    have hcodes := stepBits_codes fun y hy => hx y (List.mem_of_mem_take (i := out.length) hy)
    rw [← hfirst] at hu
    exact .inl ⟨out.length, eq_of_same_output (List.take_prefix _ _)
      (flatMap_take_prefix e.code x out.length) hu hcodes hstate rfl⟩

section

variable {e : Enc} {root : NodeIdx} {pad : Pad} {w : List Byte} {b : Byte} {x : List Symbol}
  {s : State} (hp : s.dec.phase = .load) (hx : ∀ y ∈ x, Agree e s.dec root y)
  (hv : (w ++ [b]).flatMap byteBits = x.flatMap e.code ++ List.replicate pad.toNat false)

include hv

/-- At a boundary in a cut payload some symbols are still missing. -/
theorem boundary_length_lt {n : Nat}
    (hn : ((x.take n).flatMap e.code).length + pad.toNat = 8 * w.length) :
    (x.take n).length < x.length := by
  by_contra hge
  have hall : x.take n = x := (List.take_prefix n x).eq_of_length_le (Nat.not_lt.1 hge)
  have hlen := length_of_payload hv
  rw [hall] at hn
  rw [List.length_append, List.length_singleton] at hlen
  omega

include hp hx

/-- A cut payload that leaves data bits, or has no pad bits, ends as R202 says. -/
theorem does_decode_cut (hpad : w ≠ [] ∨ pad = 0) :
    ∃ t, s.does (writes ([.decStart root pad] ++ w.map .decByte ++ [.decEnd])) = .next t ∧
      (∀ n, ((x.take n).flatMap e.code).length + pad.toNat = 8 * w.length →
        t.dec.phase = .done ∧ t.dout = s.dout ++ x.take n) ∧
      ((¬ ∃ n, ((x.take n).flatMap e.code).length + pad.toNat = 8 * w.length) →
        t.dec.phase = .fault ∧ t.dec.cause = .truncated) := by
  obtain ⟨f, hdoes, hend⟩ := does_decode (root := root) hp hpad
  rw [dataBits_of_cut hv] at hend
  refine ⟨_, hdoes, fun n hn => ?_, fun hno => ?_⟩
  · have hbits := List.prefix_iff_eq_take.1 (flatMap_take_prefix e.code x n)
    rw [Nat.eq_sub_of_add_eq hn] at hbits
    rw [← hbits, stepBits_codes fun y hy => hx y (List.mem_of_mem_take hy)] at hend
    obtain ⟨hout, hdone, -⟩ := hend.ran _ _ rfl
    exact ⟨hdone rfl, by simp [hout]⟩
  · rcases stepBits_take_codes hx (8 * w.length - pad.toNat) with ⟨n, hn⟩ | ⟨d, out, hwalk, hdesc⟩
    · have hlen := length_of_payload hv
      have hcount := congrArg List.length hn
      have hfits : pad.toNat ≤ 8 * w.length := by
        rcases hpad with hw | rfl
        · have := List.length_pos_iff.2 hw
          have := pad.isLt
          omega
        · exact Nat.zero_le _
      rw [List.length_append, List.length_singleton] at hlen
      rw [List.length_take] at hcount
      exact absurd ⟨n, by omega⟩ hno
    · obtain ⟨-, -, htruncated⟩ := hend.ran _ _ hwalk
      exact htruncated hdesc

end

/-- No byte and a pad count that is not 0 (R147, R151). -/
theorem does_decode_padded_nothing {root : NodeIdx} {pad : Pad} {s : State}
    (hp : s.dec.phase = .load) (hpad : pad ≠ 0) :
    ∃ t, s.does (writes [.decStart root pad, .decEnd]) = .next t ∧
      t.dec.phase = .fault ∧ t.dec.cause = .padInvalid := by
  have hdoes := does_decStart_payload root pad [] hp
  rw [readPayload, endReading_of_padded_nothing rfl hpad] at hdoes
  exact ⟨_, hdoes, rfl, rfl⟩

/-- Settles O50: the data bits left are a number of whole codes or end inside one; with no byte
left, the pad count decides. -/
theorem cutPayloadFaultsUnlessAtACodeBoundary :
    Obligations.CutPayloadFaultsUnlessAtACodeBoundary := by
  intro s u root x v tr hinv hpe hpd htab hheld hmem hu hv hne
  have hx : ∀ y ∈ x, Agree s.enc s.dec root y := fun y hy => tr.agree htab hheld (hmem y hy)
  obtain ⟨u', v', hu', henc⟩ := does_encode hinv.enc.free (hinv.enc.flushed (.inl hpe)) hpe
    fun y hy => (hx y hy).code_ne_nil
  obtain rfl : u = u' := Host.Outcome.next.inj (hu.symm.trans hu')
  obtain rfl : v = v' := List.append_cancel_left (hv.symm.trans henc.eout)
  obtain ⟨w, b, rfl⟩ := (List.eq_nil_or_concat' v).resolve_left hne
  have hpayload := henc.payload
  have hpu : u.dec.phase = .load := henc.dec ▸ hpd
  simp only [List.dropLast_concat, List.length_append, List.length_singleton, Nat.add_sub_cancel]
  by_cases hpad : w ≠ [] ∨ u.enc.pad = 0
  · obtain ⟨t, ht, hboundary, hinside⟩ := does_decode_cut hpu (henc.dec ▸ hx) hpayload hpad
    refine ⟨t, ht, fun n hn => ?_, fun hno => ?_⟩
    · obtain ⟨hdone, hout⟩ := hboundary n hn
      exact ⟨hdone, henc.dout ▸ hout, boundary_length_lt hpayload hn⟩
    · exact (hinside hno).imp_right .inl
  · obtain ⟨rfl, hpos⟩ : w = [] ∧ u.enc.pad ≠ 0 := by simpa using hpad
    obtain ⟨t, ht, hfault, hcause⟩ := does_decode_padded_nothing (root := root) hpu hpos
    refine ⟨t, ht, fun n hn => ?_, fun _ => ⟨hfault, .inr (.inl hcause)⟩⟩
    exact absurd (Nat.eq_zero_of_add_eq_zero_left hn) (BitVec.toNat_ne_iff_ne.2 hpos)

/-! ### The table loads of an encode call, in any order (R190) -/

/-- The loads of entries for different symbols that have no code yet leave each symbol its code. -/
theorem does_tableLoads {table : List (Symbol × Bits)} {s : State} (hp : s.enc.phase = .load)
    (hnodup : (table.map (·.1)).Nodup) (hfresh : ∀ c ∈ table, s.enc.code c.1 = [])
    (hfit : ∀ c ∈ table, c.2.length ≤ Config.lMax) :
    ∃ t, s.does (writes (table.flatMap fun c => codeLoads c.1 c.2)) = .next t ∧
      (∀ c ∈ table, t.enc.code c.1 = c.2) ∧
      (∀ y, y ∉ table.map (·.1) → t.enc.code y = s.enc.code y) ∧
      t = { s with enc := { s.enc with ct := t.enc.ct } } := by
  induction table generalizing s with
  | nil => exact ⟨s, rfl, by simp, fun _ _ => rfl, rfl⟩
  | cons c table ih =>
    simp only [List.map_cons, List.nodup_cons] at hnodup
    simp only [List.forall_mem_cons] at hfresh hfit
    obtain ⟨hnew, hrest⟩ := hnodup
    obtain ⟨t, ht, hset⟩ := does_codeLoads hp (sym := c.1) (bits := c.2)
      (by simpa [hfresh.1] using hfit.1)
    rw [hfresh.1, List.nil_append] at hset
    have hother (d : Symbol × Bits) (hd : d ∈ table) : d.1 ≠ c.1 :=
      ne_of_mem_of_not_mem (List.mem_map_of_mem hd) hnew
    obtain ⟨u, hu, hcodes, hothers, hframe⟩ := ih (hset.phase.trans hp) hrest
      (fun d hd => (hset.others d.1 (hother d hd)).trans (hfresh.2 d hd)) hfit.2
    refine ⟨u, (does_writes_append ht _).trans hu, ?_, fun y hy => ?_, ?_⟩
    · exact List.forall_mem_cons.2 ⟨(hothers c.1 hnew).trans hset.code, hcodes⟩
    · rw [List.map_cons, List.mem_cons, not_or] at hy
      exact (hothers y hy.2).trans (hset.others y hy.1)
    · rw [hframe, hset.frame]

theorem CodeTree.codes_length_le {t : CodeTree} (h : (t.codes.map (·.1)).Nodup) :
    t.codes.length ≤ 256 := by
  have hcard := h.length_le_card
  rwa [List.length_map, ← FinEnum.card_eq_fintypeCard, FinEnum.card_bitVec] at hcard

/-- With different symbols at the leaves no code has more than 255 bits (R28). -/
theorem HostTree.code_length_le {tr : HostTree} (h : tr.symbols.Nodup) :
    ∀ c ∈ tr.codes, c.2.length ≤ Config.lMax := by
  intro c hc
  cases tr with
  | empty => simp at hc
  | single sym =>
    obtain rfl : c = (sym, [false]) := by simpa [codes] using hc
    simp [Config.lMax]
  | full l r =>
    have hlt := (CodeTree.node l r).code_length_lt c hc
    exact Nat.le_of_lt_succ (hlt.trans_le (CodeTree.codes_length_le h))

/-- The encode call loads the tree's codes, whatever the order of the entries, and goes on with
nothing pending (R190). -/
theorem does_encodeCall {tr : HostTree} {table : List (Symbol × Bits)}
    (htable : table.Perm tr.codes) (hnodup : tr.symbols.Nodup) (x : List Symbol) (s : State) :
    ∃ t : State, s.does (writes (encodeCall table x)) =
        t.does (writes (x.map .encSym ++ [.encFlush])) ∧
      tr.tabled t.enc ∧ t.enc.Free ∧ t.enc.nb = 0 ∧ t.enc.phase = .load ∧ t.eout = s.eout ∧
      t.dout = s.dout := by
  have hinit : exec .encInit s = .next s.initEnc := rfl
  obtain ⟨t, ht, hcodes, -, hframe⟩ := does_tableLoads (s := s.initEnc) rfl
    ((htable.map _).nodup_iff.2 hnodup) (fun c _ => Enc.code_reset c.1)
    fun c hc => HostTree.code_length_le hnodup c (htable.mem_iff.1 hc)
  refine ⟨t, ?_, fun c hc => hcodes c (htable.mem_iff.2 hc), ?_, ?_, ?_, ?_, ?_⟩
  · rw [encodeCall, does_writes_cons hinit, List.append_assoc, does_writes_append ht]
  · rw [hframe]
    exact Enc.Inv.reset.free
  all_goals rw [hframe]; rfl

/-! ### The node loads of a decode call, in any order (R191, R255) -/

/-- The index that a node load writes; of no use for another command. -/
def loadedIndex : Instr → NodeIdx
  | .nmLeaf idx _ => idx
  | .nmInt idx _ _ => idx
  | _ => 0

/-- The entry that a node load writes; of no use for another command. -/
def loadedEntry : Instr → NodeEntry
  | .nmLeaf _ sym => .leaf sym
  | .nmInt _ l r => .int l r
  | _ => .invalid

theorem LoadsNode.exec_of_load {i : Instr} (h : LoadsNode i) {s : State}
    (hp : s.dec.phase = .load) :
    exec i s = .next { s with dec := s.dec.setNode (loadedIndex i) (loadedEntry i) } := by
  rcases h with ⟨idx, sym, rfl⟩ | ⟨idx, l, r, rfl⟩
  · exact loadNode_of_load idx (.leaf sym) hp
  · exact loadNode_of_load idx (.int l r) hp

/-- Node loads at different indices leave each index its entry, and the other indices theirs. -/
theorem does_nodeLoads_nodup {loads : List Instr} (hl : ∀ i ∈ loads, LoadsNode i) {s : State}
    (hp : s.dec.phase = .load) (hnodup : (loads.map loadedIndex).Nodup) :
    ∃ t, s.does (writes loads) = .next t ∧
      (∀ i ∈ loads, t.dec.node (loadedIndex i) = loadedEntry i) ∧
      (∀ j, j ∉ loads.map loadedIndex → t.dec.node j = s.dec.node j) ∧
      t = { s with dec := { s.dec with nm := t.dec.nm } } := by
  induction loads generalizing s with
  | nil => exact ⟨s, rfl, by simp, fun _ _ => rfl, rfl⟩
  | cons i loads ih =>
    simp only [List.map_cons, List.nodup_cons] at hnodup
    obtain ⟨hnew, hrest⟩ := hnodup
    simp only [List.forall_mem_cons] at hl
    obtain ⟨t, ht, hnodes, hothers, hframe⟩ :=
      ih (s := { s with dec := s.dec.setNode (loadedIndex i) (loadedEntry i) }) hl.2 hp hrest
    refine ⟨t, (does_writes_cons (hl.1.exec_of_load hp) _).trans ht, ?_, fun j hj => ?_, hframe⟩
    · exact List.forall_mem_cons.2 ⟨(hothers _ hnew).trans (by simp), hnodes⟩
    · rw [List.map_cons, List.mem_cons, not_or] at hj
      exact (hothers j hj.2).trans (by simp [hj.1])

theorem CodeTree.loadsNode_of_mem_loads {t : CodeTree} {n : Nat} :
    ∀ i ∈ t.loads n, LoadsNode i := by
  induction t generalizing n with
  | leaf sym => exact List.forall_mem_singleton.2 (.inl ⟨_, _, rfl⟩)
  | node l r ihl ihr =>
    exact List.forall_mem_cons.2 ⟨.inr ⟨_, _, _, rfl⟩, List.forall_mem_append.2 ⟨ihl, ihr⟩⟩

/-- The loads number the nodes one after the other (R192). -/
theorem CodeTree.loads_indices (t : CodeTree) (n : Nat) :
    (t.loads n).map loadedIndex = (List.range' n t.size).map (BitVec.ofNat 9) := by
  induction t generalizing n with
  | leaf sym => rfl
  | node l r ihl ihr =>
    rw [loads, List.map_cons, List.map_append, ihl, ihr, ← List.map_append, size,
      List.range'_append_1, Nat.add_assoc 1, Nat.add_comm 1, List.range'_succ, List.map_cons]
    rfl

/-- A node memory with the entries that the loads write holds the tree (R191). -/
theorem CodeTree.heldAt_of_loads {t : CodeTree} {n : Nat} {d : Dec}
    (h : ∀ i ∈ t.loads n, d.node (loadedIndex i) = loadedEntry i) :
    t.heldAt d (BitVec.ofNat 9 n) := by
  induction t generalizing n with
  | leaf sym => exact h (.nmLeaf (BitVec.ofNat 9 n) sym) (List.mem_singleton_self _)
  | node l r ihl ihr =>
    obtain ⟨hroot, hrest⟩ := List.forall_mem_cons.1 h
    obtain ⟨hl, hr⟩ := List.forall_mem_append.1 hrest
    exact ⟨_, _, hroot, ihl hl, ihr hr⟩

theorem HostTree.loadsNode_of_mem_loads {tr : HostTree} : ∀ i ∈ tr.loads, LoadsNode i := by
  cases tr with
  | empty => simp
  | single sym => simp [loads, LoadsNode]
  | full l r => exact CodeTree.loadsNode_of_mem_loads

/-- With different symbols at the leaves the nodes fit the memory, so their indices differ
(R192). -/
theorem HostTree.loads_nodup {tr : HostTree} (h : tr.symbols.Nodup) :
    (tr.loads.map loadedIndex).Nodup := by
  cases tr with
  | empty => simp
  | single sym => exact (by decide : [(0 : NodeIdx), 1].Nodup)
  | full l r =>
    have hcodes := CodeTree.codes_length_le h
    have hsize := (CodeTree.node l r).size_add_one
    rw [loads, CodeTree.loads_indices]
    refine List.Nodup.map_on (fun i hi j hj hij => ?_) List.nodup_range'
    rw [List.mem_range'_1] at hi hj
    have hij := congrArg BitVec.toNat hij
    rw [BitVec.toNat_ofNat, BitVec.toNat_ofNat] at hij
    omega

/-- A node memory with the entries that the loads write, and no other, holds the host's tree. -/
theorem HostTree.heldAt_of_loads {tr : HostTree} {d : Dec}
    (h : ∀ i ∈ tr.loads, d.node (loadedIndex i) = loadedEntry i)
    (hother : ∀ j, j ∉ tr.loads.map loadedIndex → d.node j = .invalid) :
    tr.heldAt d 0 := by
  cases tr with
  | empty => trivial
  | single sym =>
    obtain ⟨hroot, hleaf⟩ := List.forall_mem_cons.1 h
    exact ⟨1, BitVec.ofNat 9 noneIdx, hroot, hleaf (.nmLeaf 1 sym) (List.mem_singleton_self _),
      hother _ (by decide : BitVec.ofNat 9 noneIdx ∉ [(0 : NodeIdx), 1])⟩
  | full l r => exact CodeTree.heldAt_of_loads h

/-- The decode call loads the tree, whatever the order of the nodes, and goes on (R191, R255). -/
theorem does_decodeCall {tr : HostTree} {nodes : List Instr} (hnodes : nodes.Perm tr.loads)
    (hnodup : tr.symbols.Nodup) (pad : Pad) (v : List Byte) (s : State) :
    ∃ t : State, s.does (writes (decodeCall nodes pad v)) =
        t.does (writes ([.decStart 0 pad] ++ v.map .decByte ++ [.decEnd])) ∧
      t.dec.phase = .load ∧ tr.heldAt t.dec 0 ∧ t.dout = s.dout := by
  have hinit : exec .decInit s = .next s.initDec := rfl
  have hindices := hnodes.map loadedIndex
  obtain ⟨t, ht, hwritten, hothers, hframe⟩ := does_nodeLoads_nodup
    (fun i hi => HostTree.loadsNode_of_mem_loads i (hnodes.mem_iff.1 hi)) (s := s.initDec) rfl
    (hindices.nodup_iff.2 (HostTree.loads_nodup hnodup))
  refine ⟨t, ?_, by rw [hframe]; rfl, ?_, by rw [hframe]; rfl⟩
  · rw [decodeCall, does_writes_cons hinit, List.append_assoc, List.append_assoc,
      does_writes_append ht, List.append_assoc]
  · exact HostTree.heldAt_of_loads (fun i hi => hwritten i (hnodes.mem_iff.2 hi))
      fun j hj => hothers j (hindices.mem_iff.not.2 hj)

/-- Settles O49: the calls load a table and a tree that belong together, in any order. -/
theorem roundTripOfTheHostsCalls : Obligations.RoundTripOfTheHostsCalls := by
  intro s tr table nodes x htable hnodes hnodup hmem
  obtain ⟨se, hse, htab, hfree, hnb, hpe, heout, hdout⟩ := does_encodeCall htable hnodup x s
  have hcode (y : Symbol) (hy : y ∈ x) : se.enc.code y ≠ [] :=
    HostTree.code_ne_nil (tr.tabled_mem htab (hmem y hy))
  obtain ⟨u, v, hu, henc⟩ := does_encode hfree hnb hpe hcode
  obtain ⟨sd, hsd, hpd, hheld, hsdout⟩ := does_decodeCall hnodes hnodup u.enc.pad v u
  obtain ⟨t, ht, hdone, hout⟩ := does_decode_codes hpd
    (fun y hy => tr.agree htab hheld (hmem y hy)) henc.payload
  refine ⟨u, t, v, hse.trans hu, henc.phase, heout ▸ henc.eout, hsd.trans ht, hdone, ?_⟩
  rw [hout, hsdout, henc.dout, hdout]

end Sys2Proof.Machine

/-! PROOFS of the exception statements (spec/60_exceptions.md): a command in a phase that does not
allow it, what a unit in FAULT ignores, and what a fault leaves as it was. -/

namespace Sys2Proof.Machine

/-! ### Commands in a wrong phase (R225) -/

/-- Settles O21: the tables of R117 and R148 row by row; a row names the phases that reject its
command. -/
theorem commandInAWrongPhaseIsAProtocolFault :
    Obligations.CommandInAWrongPhaseIsAProtocolFault := by
  refine fun i s => ⟨fun h => ?_, fun h => ?_⟩
  · cases i with
    | ctClr | ctApp =>
      refine encCommand_whileLoading_of_rejected ?_
      cases hp : s.enc.phase <;> simp [hp] at h ⊢
    | encSym | encFlush =>
      refine encCommand_untilFlushed_of_rejected ?_
      cases hp : s.enc.phase <;> simp [hp] at h ⊢
    | encInit | decInit | nmLeaf | nmInt | decStart | decByte | decEnd => exact h.elim
  · cases i with
    | nmLeaf | nmInt | decStart =>
      refine decCommand_whileLoading_of_rejected ?_
      cases hp : s.dec.phase <;> simp [hp] at h ⊢
    | decByte | decEnd =>
      refine decCommand_whileRunning_of_rejected ?_
      cases hp : s.dec.phase <;> simp [hp] at h ⊢
    | encInit | ctClr | ctApp | encSym | encFlush | decInit => exact h.elim

/-! ### A unit in FAULT (R233) -/

theorem encCommand_of_fault {a : Phase → Bool} {r : Enc → Effect Enc} {s : State}
    (hp : s.enc.phase = .fault) : encCommand a r s = .next s := by
  rw [encCommand, if_pos hp]

/-- ENC in FAULT ignores every word but the word of `ENC_INIT`. -/
theorem acceptWord_enc_of_fault {w : Word} (hw : w ≠ 0x10000000) {s : State}
    (hp : s.enc.phase = .fault) : acceptWord .enc w s = .next s := by
  cases hd : decode .enc w with
  | none => rw [acceptWord, hd, illegalCommand_enc, if_pos hp, State.afterEnc_idle]
  | some i =>
    obtain ⟨hport, hword⟩ := decode_eq_some_iff.1 hd
    rw [acceptWord_of_decode hd]
    cases i with
    | encInit => exact absurd hword hw
    | ctClr | ctApp | encSym | encFlush => exact encCommand_of_fault hp
    | decInit | nmLeaf | nmInt | decStart | decByte | decEnd => simp [Instr.port] at hport

/-- DEC in FAULT ignores every word but the word of `DEC_INIT`. -/
theorem acceptWord_dec_of_fault {w : Word} (hw : w ≠ 0x80000000) {s : State}
    (hp : s.dec.phase = .fault) : acceptWord .dec w s = .next s := by
  cases hd : decode .dec w with
  | none => rw [acceptWord, hd, illegalCommand_dec, if_pos hp, State.afterDec_idle]
  | some i =>
    obtain ⟨hport, hword⟩ := decode_eq_some_iff.1 hd
    rw [acceptWord_of_decode hd]
    cases i with
    | decInit => exact absurd hword hw
    | nmLeaf | nmInt | decStart | decByte | decEnd => exact decCommand_of_fault hp
    | encInit | ctClr | ctApp | encSym | encFlush => simp [Instr.port] at hport

/-- Settles O22: every command but INIT asks for the phase first, and INIT has one word only. -/
theorem faultIgnoresEveryWordButInit : Obligations.FaultIgnoresEveryWordButInit :=
  fun _ _ _ => ⟨fun hp hw => acceptWord_enc_of_fault hw hp,
    fun hp hw => acceptWord_dec_of_fault hw hp⟩

/-! ### Fault entry of ENC (R222) -/

/-- The effect `f` on `e` leaves ENC in FAULT only by a raise that nothing came before. -/
def OnlyRaises (e : Enc) (f : Effect Enc) : Prop :=
  f.unit.phase = .fault → ∃ c, c ≠ .none ∧ f = e.raise c

theorem OnlyRaises.raise {c : Cause} (hc : c ≠ .none) (e : Enc) : OnlyRaises e (e.raise c) :=
  fun _ => ⟨c, hc, rfl⟩

theorem OnlyRaises.of_phase {e : Enc} {f : Effect Enc} (hp : f.unit.phase ≠ .fault) :
    OnlyRaises e f :=
  fun hf => absurd hf hp

section

variable {e : Enc}

theorem clearCode_onlyRaises (sym : Symbol) (hp : e.phase ≠ .fault) :
    OnlyRaises e (clearCode sym e) := .of_phase hp

theorem appendCode_onlyRaises (sym : Symbol) (nm1 : BitVec 4) (code : BitVec 16)
    (hp : e.phase ≠ .fault) : OnlyRaises e (appendCode sym nm1 code e) := by
  unfold appendCode
  split
  · exact .raise (by decide) e
  · exact .of_phase hp

theorem encodeSymbol_onlyRaises (sym : Symbol) : OnlyRaises e (encodeSymbol sym e) := by
  by_cases hc : e.code sym = []
  · rw [encodeSymbol_of_no_code hc]
    exact .raise (by decide) e
  · have hphase := congrArg Enc.phase (pushBits_frame (e.code sym) { e with phase := .run })
    rw [encodeSymbol_of_code hc]
    exact .of_phase (by simp [hphase])

theorem flush_onlyRaises : OnlyRaises e (flush e) := .of_phase (by simp [flush])

end

theorem encCommand_enters_fault {a : Phase → Bool} {r : Enc → Effect Enc} {s t : State}
    (h : encCommand a r s = .next t) (hp : s.enc.phase ≠ .fault) (hf : t.enc.phase = .fault)
    (hr : OnlyRaises s.enc (r s.enc)) : ∃ c, c ≠ .none ∧ t = s.afterEnc (s.enc.raise c) := by
  rw [encCommand, if_neg hp] at h
  split at h
  · obtain rfl := Host.Outcome.next.inj h
    obtain ⟨c, hc, hraise⟩ := hr hf
    exact ⟨c, hc, congrArg s.afterEnc hraise⟩
  · exact ⟨.protocol, by decide, (Host.Outcome.next.inj h).symm⟩

/-- A word that puts ENC into FAULT raises a cause and does nothing else. -/
theorem acceptWord_enc_enters_fault {w : Word} {s t : State} (h : acceptWord .enc w s = .next t)
    (hp : s.enc.phase ≠ .fault) (hf : t.enc.phase = .fault) :
    ∃ c, c ≠ .none ∧ t = s.afterEnc (s.enc.raise c) := by
  cases hd : decode .enc w with
  | none =>
    rw [acceptWord, hd, illegalCommand_enc, if_neg hp] at h
    exact ⟨.illegalCmd, by decide, (Host.Outcome.next.inj h).symm⟩
  | some i =>
    have hport := decode_port hd
    rw [acceptWord_of_decode hd] at h
    cases i with
    | encInit =>
      obtain rfl := Host.Outcome.next.inj h
      simp [Enc.reset] at hf
    | ctClr sym => exact encCommand_enters_fault h hp hf (clearCode_onlyRaises sym hp)
    | ctApp sym nm1 code =>
      exact encCommand_enters_fault h hp hf (appendCode_onlyRaises sym nm1 code hp)
    | encSym sym => exact encCommand_enters_fault h hp hf (encodeSymbol_onlyRaises sym)
    | encFlush => exact encCommand_enters_fault h hp hf flush_onlyRaises
    | decInit | nmLeaf | nmInt | decStart | decByte | decEnd => simp [Instr.port] at hport

/-! ### Fault entry of DEC (R222) -/

/-- DEC went from `d` into the FAULT of `d'`: beside the flags, only the position, DSTATE and HOLDV
may differ. -/
def FaultEntry (d d' : Dec) : Prop :=
  ∃ c, c ≠ .none ∧
    d' = { d with phase := .fault, cause := c, cur := d'.cur, dstate := d'.dstate,
                  holdv := d'.holdv }

theorem FaultEntry.raise {c : Cause} (hc : c ≠ .none) (d : Dec) : FaultEntry d (d.raise c).unit :=
  ⟨c, hc, rfl⟩

/-- A walk that a fault ended is a fault entry. -/
theorem FaultEntry.of_walk {bs : Bits} {d u : Dec} {out : List Byte}
    (h : stepBits bs d = .raised u out) : FaultEntry d u :=
  ⟨.treeInvalid, by decide, by rw [stepBits_raised_eq h]⟩

theorem takeByte_fault_entry {v : Byte} {d : Dec} (hp : d.phase ≠ .fault)
    (hf : (takeByte v d).unit.phase = .fault) : FaultEntry d (takeByte v d).unit := by
  cases hheld : d.holdv with
  | false =>
    rw [takeByte_of_unheld v hheld] at hf
    exact absurd hf hp
  | true =>
    cases hw : stepBits (byteBits d.hold) d with
    | ran u out =>
      rw [takeByte_of_ran v hheld hw, stepBits_ran_eq hw] at hf
      exact absurd hf hp
    | raised u out =>
      rw [takeByte_of_raised v hheld hw]
      exact .of_walk hw

theorem endAtRoot_fault_entry {d : Dec} (hf : (endAtRoot d).unit.phase = .fault) :
    FaultEntry d (endAtRoot d).unit := by
  cases h : d.dstate with
  | atRoot => simp [endAtRoot_of_atRoot h] at hf
  | descending =>
    rw [endAtRoot_of_descending h]
    exact .raise (by decide) d

theorem endReading_fault_entry {d : Dec} (hf : (endReading d).unit.phase = .fault) :
    FaultEntry d (endReading d).unit := by
  cases hheld : d.holdv with
  | false =>
    by_cases hpad : d.padr = 0
    · rw [endReading_of_nothing hheld hpad] at hf ⊢
      exact endAtRoot_fault_entry hf
    · rw [endReading_of_padded_nothing hheld hpad]
      exact .raise (by decide) d
  | true =>
    cases hw : stepBits ((byteBits d.hold).take (8 - d.padr.toNat)) d with
    | ran u out =>
      rw [endReading_of_ran hheld hw, Effect.unit_after] at hf ⊢
      obtain ⟨c, hc, hend⟩ := endAtRoot_fault_entry hf
      exact ⟨c, hc, by rw [hend, stepBits_ran_eq hw]⟩
    | raised u out =>
      rw [endReading_of_raised hheld hw]
      exact .of_walk hw

theorem DecMove.fault_entry {w : Word} {d d' : Dec} (hm : DecMove w d d') (hp : d.phase ≠ .fault)
    (hf : d'.phase = .fault) : FaultEntry d d' := by
  cases hm with
  | ignored hd => exact absurd hd hp
  | init => simp [Dec.reset] at hf
  | rejected c hc => exact .raise (by rcases hc with rfl | rfl <;> decide) d
  | leaf | int => exact absurd hf hp
  | start => simp [startReading] at hf
  | byte => exact takeByte_fault_entry hp hf
  | finish => exact endReading_fault_entry hf

/-- Settles O23: a rule of ENC raises before it does anything else; DEC may have walked some bits
before the raise, and a walk moves the position and DSTATE only. -/
theorem faultEntryKeepsTheRestOfTheUnit : Obligations.FaultEntryKeepsTheRestOfTheUnit := by
  intro w s t rest
  refine ⟨fun hp h hf => ?_, fun hp h hf => ?_⟩
  · obtain ⟨c, hc, rfl⟩ := acceptWord_enc_enters_fault h hp hf
    exact ⟨c, hc, afterEnc_raise c { s with inputs := rest }⟩
  · obtain ⟨c, hc, hdec⟩ := (acceptWord_dec_move h).fault_entry hp hf
    obtain ⟨hport, -⟩ | ⟨-, f, rfl⟩ := acceptWord_eq_next h
    · cases hport
    · exact ⟨c, f.out, hc, by rw [← hdec]; rfl⟩

end Sys2Proof.Machine

/-! PROOFS of the reset and hazard statements (spec/70_reset_and_hazards.md): a sink that stops
taking bytes, a reset that cuts a step, and a reset between steps. -/

namespace Sys2Proof.Machine

/-! ### What a step has emitted -/

section

variable {p : Port} {w : Word} {s u : State}

theorem stream_append_emittedAt (h : acceptWord p w s = .next u) :
    s.stream p ++ emittedAt p s u = u.stream p :=
  (List.prefix_append_drop (acceptWord_stream_prefix h p)).symm

theorem acceptStalled_of_next (h : acceptWord p w s = .next u) (handed : Nat) :
    acceptStalled p w handed s =
      if handed < (emittedAt p s u).length then .fault (.sinkNeverReady p) else .next u := by
  simp only [acceptStalled, h]

/-- The stream after a reset that cuts a step is the stream after the whole step, cut (R253). -/
theorem stream_append_handedBefore (h : acceptWord p w s = .next u) (k : Nat) :
    s.stream p ++ handedBefore p (some (w, k)) s =
      (u.stream p).take ((s.stream p).length + k) := by
  have hhanded : handedBefore p (some (w, k)) s = (emittedAt p s u).take k := by
    simp only [handedBefore, h]
  rw [hhanded, ← stream_append_emittedAt h, List.take_length_add_append]

end

/-! ### The obligations -/

/-- Settles O12: what reset adds to a stream is what the cut step has handed over, a beginning of
what the whole step emits. -/
theorem resetKeepsOnlyTheBytesHandedOver : Obligations.ResetKeepsOnlyTheBytesHandedOver := by
  refine fun encCut decCut s rest =>
    ⟨handedBefore .enc encCut { s with inputs := rest },
      handedBefore .dec decCut { s with inputs := rest }, rfl, ?_, ?_, ?_, ?_⟩
  · rintro rfl
    rfl
  · rintro rfl
    rfl
  · rintro w k u rfl h
    exact stream_append_handedBefore (p := .enc) h k
  · rintro w k u rfl h
    exact stream_append_handedBefore (p := .dec) h k

/-- Settles O11: the step has a byte left for the sink when its stream grows by more than the sink
takes. -/
theorem stalledSinkStopsOnlyAStepWithBytesLeft :
    Obligations.StalledSinkStopsOnlyAStepWithBytesLeft := by
  intro p w handed s u rest h
  have hbytes : handed < (emittedAt p { s with inputs := rest } u).length ↔
      (s.stream p).length + handed < (u.stream p).length := by
    rw [← stream_append_emittedAt h, List.length_append]
    exact Nat.add_lt_add_iff_left.symm
  exact (acceptStalled_of_next h handed).trans (if_congr hbytes rfl rfl)

theorem resetUnits_between_steps (s : State) : resetUnits none none s = s.initEnc.initDec := by
  simp [resetUnits, handedBefore, State.initEnc, State.initDec]

/-- Settles O13: both runs end with each unit in its reset state and the streams as they were. -/
theorem resetIsThePairOfInits : Obligations.ResetIsThePairOfInits := by
  intro s
  have henc : exec .encInit s = .next s.initEnc := rfl
  have hdec : exec .decInit s.initEnc = .next s.initEnc.initDec := rfl
  refine ⟨s.initEnc.initDec, ?_, ?_⟩
  · have hreset : acceptInput (.reset none none) s = .next s.initEnc.initDec :=
      congrArg Host.Outcome.next (resetUnits_between_steps s)
    rw [does_cons hreset, does_nil]
  · rw [does_writes_cons henc, does_writes_cons hdec]
    exact does_nil _

end Sys2Proof.Machine
